-- ==== Sys2Proof/Word.lean ====
section
/-! DEFINITION. The widths of the hardware's values (R6, R9, R10, R14): every value is an unsigned bit vector of a
stated width, and no value is ever sign-extended. -/

namespace Sys2Proof

/-- A memory cell, a register, a timer or a sprite row: 8 bits (R6). -/
abbrev Byte := BitVec 8

/-- An instruction word, the index register, the program counter or a stack entry: 16 bits (R6). -/
abbrev Word := BitVec 16

/-- A 4-bit field: a register index, a key index or a sprite height (R9, R93). -/
abbrev Nibble := BitVec 4

/-- The 12-bit address field `nnn` (R92, R93). -/
abbrev Addr := BitVec 12

/-- The number of bytes of memory, addresses 0x000 to 0xFFF (R6, R60). -/
def memSize : Nat := 4096

/-- The load address and the reset value of the program counter (R6, R71). -/
def progBase : Nat := 0x200

end Sys2Proof
end

