-- ==== Sys2Proof/Syntax.lean ====
section
/-! DEFINITION. The instruction set: one constructor for each of the 35 rows of the opcode map (R2, R100). -/

namespace Sys2Proof

/-- The instructions in the order of R100. The comment of a constructor gives its pattern and its rule. -/
inductive Instr where
  /-- `00E0` CLS (R191). -/
  | cls
  /-- `00EE` RET (R121). -/
  | ret
  /-- `0nnn` SYS nnn, every `0nnn` but 0x00E0 and 0x00EE (R105, R122). -/
  | sys (nnn : Addr)
  /-- `1nnn` JP nnn (R123). -/
  | jp (nnn : Addr)
  /-- `2nnn` CALL nnn (R124). -/
  | call (nnn : Addr)
  /-- `3xkk` SE Vx, kk (R125). -/
  | seImm (x : Nibble) (kk : Byte)
  /-- `4xkk` SNE Vx, kk (R126). -/
  | sneImm (x : Nibble) (kk : Byte)
  /-- `5xy0` SE Vx, Vy (R127). -/
  | seReg (x y : Nibble)
  /-- `6xkk` LD Vx, kk (R142). -/
  | ldImm (x : Nibble) (kk : Byte)
  /-- `7xkk` ADD Vx, kk (R143). -/
  | addImm (x : Nibble) (kk : Byte)
  /-- `8xy0` LD Vx, Vy (R144). -/
  | ldReg (x y : Nibble)
  /-- `8xy1` OR Vx, Vy (R145). -/
  | orReg (x y : Nibble)
  /-- `8xy2` AND Vx, Vy (R146). -/
  | andReg (x y : Nibble)
  /-- `8xy3` XOR Vx, Vy (R147). -/
  | xorReg (x y : Nibble)
  /-- `8xy4` ADD Vx, Vy (R148). -/
  | addReg (x y : Nibble)
  /-- `8xy5` SUB Vx, Vy (R149). -/
  | subReg (x y : Nibble)
  /-- `8xy6` SHR Vx, Vy (R150). -/
  | shrReg (x y : Nibble)
  /-- `8xy7` SUBN Vx, Vy (R151). -/
  | subnReg (x y : Nibble)
  /-- `8xyE` SHL Vx, Vy (R152). -/
  | shlReg (x y : Nibble)
  /-- `9xy0` SNE Vx, Vy (R128). -/
  | sneReg (x y : Nibble)
  /-- `Annn` LD I, nnn (R170). -/
  | ldI (nnn : Addr)
  /-- `Bnnn` JP V0, nnn (R131). -/
  | jpV0 (nnn : Addr)
  /-- `Cxkk` RND Vx, kk (R160). -/
  | rnd (x : Nibble) (kk : Byte)
  /-- `Dxyn` DRW Vx, Vy, n (R192). -/
  | drw (x y n : Nibble)
  /-- `Ex9E` SKP Vx (R200). -/
  | skp (x : Nibble)
  /-- `ExA1` SKNP Vx (R201). -/
  | sknp (x : Nibble)
  /-- `Fx07` LD Vx, DT (R204). -/
  | ldVxDT (x : Nibble)
  /-- `Fx0A` LD Vx, K (R202). -/
  | ldVxK (x : Nibble)
  /-- `Fx15` LD DT, Vx (R205). -/
  | ldDTVx (x : Nibble)
  /-- `Fx18` LD ST, Vx (R206). -/
  | ldSTVx (x : Nibble)
  /-- `Fx1E` ADD I, Vx (R171). -/
  | addI (x : Nibble)
  /-- `Fx29` LD F, Vx (R172). -/
  | ldF (x : Nibble)
  /-- `Fx33` LD B, Vx (R175). -/
  | ldB (x : Nibble)
  /-- `Fx55` LD [I], Vx (R176). -/
  | storeRegs (x : Nibble)
  /-- `Fx65` LD Vx, [I] (R177). -/
  | loadRegs (x : Nibble)
  deriving DecidableEq, Repr

end Sys2Proof
end

