-- ==== Sys2Proof/WellFormed.lean ====
section
/-! DEFINITION. Which instructions the encoding can express. Every operand field of every row admits every value
(R21, R93, U24) but for one: `0nnn` has neither `nnn = 0E0` nor `nnn = 0EE`, which are the rows `00E0` and `00EE`
(R100, R105). -/

namespace Sys2Proof

/-- The `nnn` of a legacy call: not the one of CLS and not the one of RET (R105). -/
def legacyAddrOk (nnn : Addr) : Bool :=
  nnn ≠ 0x0E0#12 && nnn ≠ 0x0EE#12

/-- Whether some word encodes the instruction. -/
def Instr.wf : Instr → Bool
  | .sys nnn => legacyAddrOk nnn
  | .cls | .ret | .jp _ | .call _ | .seImm _ _ | .sneImm _ _ | .seReg _ _ | .ldImm _ _ | .addImm _ _
  | .ldReg _ _ | .orReg _ _ | .andReg _ _ | .xorReg _ _ | .addReg _ _ | .subReg _ _ | .shrReg _ _ | .subnReg _ _
  | .shlReg _ _ | .sneReg _ _ | .ldI _ | .jpV0 _ | .rnd _ _ | .drw _ _ _ | .skp _ | .sknp _ | .ldVxDT _
  | .ldVxK _ | .ldDTVx _ | .ldSTVx _ | .addI _ | .ldF _ | .ldB _ | .storeRegs _ | .loadRegs _ => true

end Sys2Proof
end

