-- ==== Sys2Proof/Decode.lean ====
section
/-! DEFINITION. The decoder (R90 to R109), a total function of the word alone, then the encoder written from the same
table. -/

namespace Sys2Proof

/-! ## Field extraction (R14, R92) -/

/-- `type = w[15:12]`, the opcode family. -/
def fieldType (w : Word) : Nibble := w.extractLsb' 12 4

/-- `x = w[11:8]`. -/
def fieldX (w : Word) : Nibble := w.extractLsb' 8 4

/-- `y = w[7:4]`. -/
def fieldY (w : Word) : Nibble := w.extractLsb' 4 4

/-- `n = w[3:0]`. -/
def fieldN (w : Word) : Nibble := w.extractLsb' 0 4

/-- `kk = w[7:0]`. -/
def fieldKK (w : Word) : Byte := w.extractLsb' 0 8

/-- `nnn = w[11:0]`. -/
def fieldNNN (w : Word) : Addr := w.extractLsb' 0 12

/-! ## The decoder -/

/-- Why bytes are no instruction. -/
inductive DecodeError where
  /-- The word selects no row of the opcode map (R104, R225). -/
  | invalidOpcode (w : Word)
  /-- Fewer than the two bytes of an instruction (R90). -/
  | truncated
  deriving DecidableEq, Repr

/-- The words of type 0: CLS and RET are tested before the legacy call (R100, R101, R105). -/
def decodeType0 (w : Word) : Instr :=
  if w = 0x00E0#16 then .cls
  else if w = 0x00EE#16 then .ret
  else .sys (fieldNNN w)

/-- The words of type 8, selected by `n` (R101). -/
def decodeType8 (w : Word) : Except DecodeError Instr :=
  if fieldN w = 0x0#4 then .ok (.ldReg (fieldX w) (fieldY w))
  else if fieldN w = 0x1#4 then .ok (.orReg (fieldX w) (fieldY w))
  else if fieldN w = 0x2#4 then .ok (.andReg (fieldX w) (fieldY w))
  else if fieldN w = 0x3#4 then .ok (.xorReg (fieldX w) (fieldY w))
  else if fieldN w = 0x4#4 then .ok (.addReg (fieldX w) (fieldY w))
  else if fieldN w = 0x5#4 then .ok (.subReg (fieldX w) (fieldY w))
  else if fieldN w = 0x6#4 then .ok (.shrReg (fieldX w) (fieldY w))
  else if fieldN w = 0x7#4 then .ok (.subnReg (fieldX w) (fieldY w))
  else if fieldN w = 0xE#4 then .ok (.shlReg (fieldX w) (fieldY w))
  else .error (.invalidOpcode w)

/-- The words of type E, selected by `kk` (R101). -/
def decodeTypeE (w : Word) : Except DecodeError Instr :=
  if fieldKK w = 0x9E#8 then .ok (.skp (fieldX w))
  else if fieldKK w = 0xA1#8 then .ok (.sknp (fieldX w))
  else .error (.invalidOpcode w)

/-- The words of type F, selected by `kk` (R101). -/
def decodeTypeF (w : Word) : Except DecodeError Instr :=
  if fieldKK w = 0x07#8 then .ok (.ldVxDT (fieldX w))
  else if fieldKK w = 0x0A#8 then .ok (.ldVxK (fieldX w))
  else if fieldKK w = 0x15#8 then .ok (.ldDTVx (fieldX w))
  else if fieldKK w = 0x18#8 then .ok (.ldSTVx (fieldX w))
  else if fieldKK w = 0x1E#8 then .ok (.addI (fieldX w))
  else if fieldKK w = 0x29#8 then .ok (.ldF (fieldX w))
  else if fieldKK w = 0x33#8 then .ok (.ldB (fieldX w))
  else if fieldKK w = 0x55#8 then .ok (.storeRegs (fieldX w))
  else if fieldKK w = 0x65#8 then .ok (.loadRegs (fieldX w))
  else .error (.invalidOpcode w)

/-- The decode algorithm of R101, total on all 65536 words and reading no state (R92, R107). The low nibble of types 5
and 9 is a sub-selector whose only listed value is 0 (R101). -/
def decode (w : Word) : Except DecodeError Instr :=
  if fieldType w = 0x0#4 then .ok (decodeType0 w)
  else if fieldType w = 0x1#4 then .ok (.jp (fieldNNN w))
  else if fieldType w = 0x2#4 then .ok (.call (fieldNNN w))
  else if fieldType w = 0x3#4 then .ok (.seImm (fieldX w) (fieldKK w))
  else if fieldType w = 0x4#4 then .ok (.sneImm (fieldX w) (fieldKK w))
  else if fieldType w = 0x5#4 then
    if fieldN w = 0x0#4 then .ok (.seReg (fieldX w) (fieldY w)) else .error (.invalidOpcode w)
  else if fieldType w = 0x6#4 then .ok (.ldImm (fieldX w) (fieldKK w))
  else if fieldType w = 0x7#4 then .ok (.addImm (fieldX w) (fieldKK w))
  else if fieldType w = 0x8#4 then decodeType8 w
  else if fieldType w = 0x9#4 then
    if fieldN w = 0x0#4 then .ok (.sneReg (fieldX w) (fieldY w)) else .error (.invalidOpcode w)
  else if fieldType w = 0xA#4 then .ok (.ldI (fieldNNN w))
  else if fieldType w = 0xB#4 then .ok (.jpV0 (fieldNNN w))
  else if fieldType w = 0xC#4 then .ok (.rnd (fieldX w) (fieldKK w))
  else if fieldType w = 0xD#4 then .ok (.drw (fieldX w) (fieldY w) (fieldN w))
  else if fieldType w = 0xE#4 then decodeTypeE w
  else decodeTypeF w

/-- Two bytes as a word, the byte at the lower address the more significant (R66, R90). -/
def wordOfBytes (hi lo : Byte) : Word := hi ++ lo

/-- The byte at the lower address of a word (R66, R91). -/
def highByte (w : Word) : Byte := w.extractLsb' 8 8

/-- The byte at the higher address of a word (R66, R91). -/
def lowByte (w : Word) : Byte := w.extractLsb' 0 8

/-- Decoding of a byte string: the instruction at its head and the bytes after it (R66, R90). -/
def decodeBytes : List Byte → Except DecodeError (Instr × List Byte)
  | hi :: lo :: rest => (decode (wordOfBytes hi lo)).map (·, rest)
  | [_] | [] => .error .truncated

/-! ## The encoder -/

/-- The form NNN of R94: the type and the address field. -/
def encodeNNN (t : Nibble) (nnn : Addr) : Word := t ++ nnn

/-- The forms XKK and X of R94: the type, the register and the low byte. -/
def encodeXKK (t x : Nibble) (kk : Byte) : Word := t ++ x ++ kk

/-- The forms XY and XYN of R94: the type, two registers and the low nibble. -/
def encodeXYN (t x y n : Nibble) : Word := t ++ x ++ y ++ n

/-- The word of an instruction, row by row of R100. -/
def encode : Instr → Word
  | .cls => 0x00E0#16
  | .ret => 0x00EE#16
  | .sys nnn => encodeNNN 0x0#4 nnn
  | .jp nnn => encodeNNN 0x1#4 nnn
  | .call nnn => encodeNNN 0x2#4 nnn
  | .seImm x kk => encodeXKK 0x3#4 x kk
  | .sneImm x kk => encodeXKK 0x4#4 x kk
  | .seReg x y => encodeXYN 0x5#4 x y 0x0#4
  | .ldImm x kk => encodeXKK 0x6#4 x kk
  | .addImm x kk => encodeXKK 0x7#4 x kk
  | .ldReg x y => encodeXYN 0x8#4 x y 0x0#4
  | .orReg x y => encodeXYN 0x8#4 x y 0x1#4
  | .andReg x y => encodeXYN 0x8#4 x y 0x2#4
  | .xorReg x y => encodeXYN 0x8#4 x y 0x3#4
  | .addReg x y => encodeXYN 0x8#4 x y 0x4#4
  | .subReg x y => encodeXYN 0x8#4 x y 0x5#4
  | .shrReg x y => encodeXYN 0x8#4 x y 0x6#4
  | .subnReg x y => encodeXYN 0x8#4 x y 0x7#4
  | .shlReg x y => encodeXYN 0x8#4 x y 0xE#4
  | .sneReg x y => encodeXYN 0x9#4 x y 0x0#4
  | .ldI nnn => encodeNNN 0xA#4 nnn
  | .jpV0 nnn => encodeNNN 0xB#4 nnn
  | .rnd x kk => encodeXKK 0xC#4 x kk
  | .drw x y n => encodeXYN 0xD#4 x y n
  | .skp x => encodeXKK 0xE#4 x 0x9E#8
  | .sknp x => encodeXKK 0xE#4 x 0xA1#8
  | .ldVxDT x => encodeXKK 0xF#4 x 0x07#8
  | .ldVxK x => encodeXKK 0xF#4 x 0x0A#8
  | .ldDTVx x => encodeXKK 0xF#4 x 0x15#8
  | .ldSTVx x => encodeXKK 0xF#4 x 0x18#8
  | .addI x => encodeXKK 0xF#4 x 0x1E#8
  | .ldF x => encodeXKK 0xF#4 x 0x29#8
  | .ldB x => encodeXKK 0xF#4 x 0x33#8
  | .storeRegs x => encodeXKK 0xF#4 x 0x55#8
  | .loadRegs x => encodeXKK 0xF#4 x 0x65#8

/-- The bytes of an instruction as memory holds them, lowest address first (R66). -/
def encodeBytes (i : Instr) : List Byte := [highByte (encode i), lowByte (encode i)]

/-! ## The opcode map of R100, as a table -/

/-- One row of R100: a word `w` selects it when `w &&& mask = pattern`. -/
structure OpcodeRow where
  name : String
  pattern : Word
  mask : Word
  deriving DecidableEq, Repr

/-- The rows of R100 of types 0 to 7, the more specific first. -/
def opcodeRowsLow : List OpcodeRow := [
  ⟨"00E0", 0x00E0, 0xFFFF⟩, ⟨"00EE", 0x00EE, 0xFFFF⟩, ⟨"0nnn", 0x0000, 0xF000⟩, ⟨"1nnn", 0x1000, 0xF000⟩,
  ⟨"2nnn", 0x2000, 0xF000⟩, ⟨"3xkk", 0x3000, 0xF000⟩, ⟨"4xkk", 0x4000, 0xF000⟩, ⟨"5xy0", 0x5000, 0xF00F⟩,
  ⟨"6xkk", 0x6000, 0xF000⟩, ⟨"7xkk", 0x7000, 0xF000⟩]

/-- The rows of R100 of types 8 to D. -/
def opcodeRowsMid : List OpcodeRow := [
  ⟨"8xy0", 0x8000, 0xF00F⟩, ⟨"8xy1", 0x8001, 0xF00F⟩, ⟨"8xy2", 0x8002, 0xF00F⟩, ⟨"8xy3", 0x8003, 0xF00F⟩,
  ⟨"8xy4", 0x8004, 0xF00F⟩, ⟨"8xy5", 0x8005, 0xF00F⟩, ⟨"8xy6", 0x8006, 0xF00F⟩, ⟨"8xy7", 0x8007, 0xF00F⟩,
  ⟨"8xyE", 0x800E, 0xF00F⟩, ⟨"9xy0", 0x9000, 0xF00F⟩, ⟨"Annn", 0xA000, 0xF000⟩, ⟨"Bnnn", 0xB000, 0xF000⟩,
  ⟨"Cxkk", 0xC000, 0xF000⟩, ⟨"Dxyn", 0xD000, 0xF000⟩]

/-- The rows of R100 of types E and F. -/
def opcodeRowsHigh : List OpcodeRow := [
  ⟨"Ex9E", 0xE09E, 0xF0FF⟩, ⟨"ExA1", 0xE0A1, 0xF0FF⟩, ⟨"Fx07", 0xF007, 0xF0FF⟩, ⟨"Fx0A", 0xF00A, 0xF0FF⟩,
  ⟨"Fx15", 0xF015, 0xF0FF⟩, ⟨"Fx18", 0xF018, 0xF0FF⟩, ⟨"Fx1E", 0xF01E, 0xF0FF⟩, ⟨"Fx29", 0xF029, 0xF0FF⟩,
  ⟨"Fx33", 0xF033, 0xF0FF⟩, ⟨"Fx55", 0xF055, 0xF0FF⟩, ⟨"Fx65", 0xF065, 0xF0FF⟩]

/-- The opcode map of R100, its 35 rows in priority order. -/
def opcodeTable : List OpcodeRow := opcodeRowsLow ++ opcodeRowsMid ++ opcodeRowsHigh

/-- The row a word selects: the first whose masked bits match (R100). -/
def selectRow (w : Word) : Option OpcodeRow :=
  opcodeTable.find? (fun r => w &&& r.mask = r.pattern)

/-- The row of R100 an instruction stands for, by its pattern. -/
def Instr.patternName : Instr → String
  | .cls => "00E0" | .ret => "00EE" | .sys _ => "0nnn" | .jp _ => "1nnn" | .call _ => "2nnn"
  | .seImm _ _ => "3xkk" | .sneImm _ _ => "4xkk" | .seReg _ _ => "5xy0" | .ldImm _ _ => "6xkk"
  | .addImm _ _ => "7xkk" | .ldReg _ _ => "8xy0" | .orReg _ _ => "8xy1" | .andReg _ _ => "8xy2"
  | .xorReg _ _ => "8xy3" | .addReg _ _ => "8xy4" | .subReg _ _ => "8xy5" | .shrReg _ _ => "8xy6"
  | .subnReg _ _ => "8xy7" | .shlReg _ _ => "8xyE" | .sneReg _ _ => "9xy0" | .ldI _ => "Annn" | .jpV0 _ => "Bnnn"
  | .rnd _ _ => "Cxkk" | .drw _ _ _ => "Dxyn" | .skp _ => "Ex9E" | .sknp _ => "ExA1" | .ldVxDT _ => "Fx07"
  | .ldVxK _ => "Fx0A" | .ldDTVx _ => "Fx15" | .ldSTVx _ => "Fx18" | .addI _ => "Fx1E" | .ldF _ => "Fx29"
  | .ldB _ => "Fx33" | .storeRegs _ => "Fx55" | .loadRegs _ => "Fx65"

/-! ## The host's question about a row of the opcode table -/

/-- The word whose `nbits` low bits are those of `w` and whose other bits are 0. The table numbers the one instruction
word's bits from its least significant (R9, R92). -/
def tableWord (nbits w : Nat) : Word := BitVec.ofNat 16 (w % 2 ^ nbits)

/-- The instruction the decoder reads from the two bytes of the table's word, most significant byte first (R66). -/
def decodeTableWord (nbits w : Nat) : Option Instr :=
  match decodeBytes [highByte (tableWord nbits w), lowByte (tableWord nbits w)] with
  | .ok (i, _) => some i
  | .error _ => none

end Sys2Proof
end

