-- ==== Sys2Proof/Config.lean ====
section
/-! DEFINITION. What the spec leaves to the implementation: the five parameters of R7, held as one plain record, and
the random byte of R160, a free value. -/

namespace Sys2Proof

/-- SPRITE_EDGE (R7, R192, U1): what becomes of a sprite pixel past column 63 or row 31. -/
inductive SpriteEdge where
  | clip
  | wrap
  deriving DecidableEq, Repr

/-- SHIFT_SOURCE (R7, R150, R152, U2): the operand that `8xy6` and `8xyE` shift. -/
inductive ShiftSource where
  | vx
  | vy
  deriving DecidableEq, Repr

/-- The implementation parameters of R7. The machine keeps one such record and no command changes it, so that a
statement about every state is a statement about every value of every parameter (log 1). -/
structure Config where
  /-- FONT_BASE, the address of glyph 0 (R7, R38). -/
  fontBase : Word
  /-- FONT_DATA, 16 glyphs of 5 bytes (R7, R38). -/
  fontData : Vector Byte 80
  /-- STACK_DEPTH (R7, R28). -/
  stackDepth : Nat
  /-- SPRITE_EDGE (R7, R192). -/
  spriteEdge : SpriteEdge
  /-- SHIFT_SOURCE (R7, R150). -/
  shiftSource : ShiftSource
  deriving DecidableEq, Repr

/-- The constraints R7 puts on the parameters: the font lies below 0x200, and the stack holds an entry. -/
abbrev Config.wf (c : Config) : Prop :=
  c.fontBase.toNat + 80 ≤ progBase ∧ 1 ≤ c.stackDepth

/-- The default FONT_DATA: the table of R38, one digit a row. -/
def Config.defaultFont : Vector Byte 80 := Vector.mk (#[
  0xF0, 0x90, 0x90, 0x90, 0xF0,
  0x20, 0x60, 0x20, 0x20, 0x70,
  0xF0, 0x10, 0xF0, 0x80, 0xF0,
  0xF0, 0x10, 0xF0, 0x10, 0xF0] ++ #[
  0x90, 0x90, 0xF0, 0x10, 0x10,
  0xF0, 0x80, 0xF0, 0x10, 0xF0,
  0xF0, 0x80, 0xF0, 0x90, 0xF0,
  0xF0, 0x10, 0x20, 0x40, 0x40] ++ #[
  0xF0, 0x90, 0xF0, 0x90, 0xF0,
  0xF0, 0x90, 0xF0, 0x10, 0xF0,
  0xF0, 0x90, 0xF0, 0x90, 0x90,
  0xE0, 0x90, 0xE0, 0x90, 0xE0] ++ #[
  0xF0, 0x80, 0x80, 0x80, 0xF0,
  0xE0, 0x90, 0x90, 0x90, 0xE0,
  0xF0, 0x80, 0xF0, 0x80, 0xF0,
  0xF0, 0x80, 0xF0, 0x80, 0x80]) (by rfl)

/-- The defaults R7 names. DESIGN CHOICE (log 1): a model must start with some parameters, and these are the spec's. -/
def Config.default : Config where
  fontBase := 0x050
  fontData := Config.defaultFont
  stackDepth := 16
  spriteEdge := .clip
  shiftSource := .vx

/-- The random byte of the `n`-th draw (R160, U11): a FREE VALUE, with no law on it (log 3). -/
opaque Config.randomByte : Nat → Byte

end Sys2Proof
end

