-- ==== Sys2Proof/Machine/State.lean ====
section
/-! DEFINITION. The state of the core (R20), its fault records (R226) and the state after reset (R260, R261). -/

namespace Sys2Proof.Machine

/-- The typed failures of a step (R220 to R226), each with the fields of the fault record that its rule fills: `pc`, the
address the instruction was, or was to be, fetched from; `word`, the instruction word; `addr`, the start address of the
failing access. A fault is the RESULT of a step and stops nothing (R229): the machine delivers it in `State.result` and
goes on, so no step answers `Host.Outcome.fault` (log 2). -/
inductive Fault where
  /-- A memory access past the end of memory (R221), raised by a fetch, `Dxyn`, `Fx33`, `Fx55`, `Fx65` and `Load`;
  safe: it is the effect the spec states. -/
  | outOfBounds (pc word addr : Word)
  /-- `00EE` with an empty stack (R222); safe: it is the effect the spec states. -/
  | stackUnderflow (pc word : Word)
  /-- `2nnn` with a full stack (R223); safe: it is the effect the spec states. -/
  | stackOverflow (pc word : Word)
  /-- `0nnn` other than `00E0` and `00EE` (R224); safe: it is the effect the spec states. -/
  | unsupportedLegacyOp (pc word : Word)
  /-- A word that selects no row of the opcode map, raised by the step itself (R225); safe: it is the effect the spec
  states. -/
  | invalidOpcode (pc word : Word)
  deriving DecidableEq, Repr

/-- The reasons a step can be refused. -/
inductive Refusal where
  /-- An instruction with no meaning in this model, raised by an arm of `exec` alone; safe. No arm answers it: every
  instruction of the opcode table has its meaning. -/
  | notModelled (mnemonic : String)
  deriving DecidableEq, Repr

/-- The one memory (R60): the bytes that differ from what reset left, by strictly rising address. An address the list
does not name reads as its reset contents (log 9). -/
abbrev Memory := List Host.Cell

/-- The framebuffer (R31): 32 rows, row 0 topmost, of 64 one-bit pixels, bit `px` of a row the pixel of column `px`. -/
abbrev Framebuffer := Vector (BitVec 64) 32

/-- The whole state of the core: the record of R20, in its order and under its names, then four fields of the model's
own. -/
structure State where
  /-- Memory, 4096 bytes (R60). -/
  mem : Memory
  /-- The general registers V0 to VF (R21, R22). -/
  V : Vector Byte 16
  /-- The index register, all 16 bits of it (R24). -/
  I : Word
  /-- The program counter (R25). -/
  PC : Word
  /-- The call stack's entries, `STACK_DEPTH` of them, `stack[0]` the oldest (R28). -/
  stack : List Word
  /-- The number of valid stack entries (R28). -/
  SP : Nat
  /-- The delay timer (R29). -/
  DT : Byte
  /-- The sound timer (R29). -/
  ST : Byte
  /-- The keypad snapshot, `true` for a pressed key (R30). -/
  key : Vector Bool 16
  /-- The framebuffer (R31). -/
  fb : Framebuffer
  /-- Redraw pending (R32). -/
  redraw : Bool
  /-- Awaiting key input: an `Fx0A` is not complete (R33). -/
  awaiting : Bool
  /-- The register the awaited key goes to, read only while `awaiting` (R33, U22). -/
  waitX : Nibble
  /-- The model's own: the parameters of R7, which nothing changes (log 1). -/
  cfg : Config
  /-- The model's own: what the last `Step` or `Load` answered, `none` for `Ok` (R53, log 2). No rule reads it. -/
  result : Option Fault
  /-- The model's own: the byte `rnd` the host gave with this `Step`, if it gave one (R50, R160, log 3). -/
  rndIn : Option Byte
  /-- The model's own: how many bytes of the free stream `Config.randomByte` have been drawn (R160, log 3). -/
  draws : Nat
  deriving DecidableEq, Repr

/-- The state after `Reset` under the parameters `c` (R260, R261): the font in place and every other piece of state
zero, with `PC` at 0x200. -/
def State.resetWith (c : Config) : State where
  mem := []
  V := Vector.replicate 16 0
  I := 0x0000#16
  PC := 0x0200#16
  stack := List.replicate c.stackDepth 0
  SP := 0
  DT := 0x00#8
  ST := 0x00#8
  key := Vector.replicate 16 false
  fb := Vector.replicate 32 0
  redraw := false
  awaiting := false
  waitX := 0x0#4
  cfg := c
  result := none
  rndIn := none
  draws := 0

/-- The machine right after reset, with the default parameters of R7 (log 1). -/
def State.reset : State := State.resetWith Config.default

end Sys2Proof.Machine
end

