-- ==== Sys2Proof/Machine/Ops.lean ====
section
/-! DEFINITION. The named operations over memory, registers, stack, framebuffer and keypad, and TAKING A FAULT as one
shared operation. -/

namespace Sys2Proof

/-- What a byte of memory holds at reset (R20, R38, R71, R260, R261): the font from FONT_BASE, zero elsewhere. It is
also what an address that the memory does not list reads as (log 9). -/
def Config.resetByte (c : Config) (a : Nat) : Byte :=
  if c.fontBase.toNat ≤ a then c.fontData[a - c.fontBase.toNat]?.getD 0 else 0

end Sys2Proof

namespace Sys2Proof.Machine

/-- What an instruction's meaning and a step answer. -/
abbrev Result := Host.Outcome State Fault Refusal

/-! ## Memory (R60 to R64), a list of cells in one canonical form -/

/-- The canonical form: addresses strictly rising and below 4096, and no cell that holds what an unlisted address reads
as. -/
abbrev Memory.wf (c : Config) (m : Memory) : Prop :=
  m.Pairwise (fun p q => p.1 < q.1) ∧ ∀ p ∈ m, p.1 < memSize ∧ p.2 ≠ c.resetByte p.1

/-- The byte the list holds for an address, if it names it. -/
def Memory.find : Memory → Nat → Option Byte
  | [], _ => none
  | (k, b) :: m, a => if k = a then some b else Memory.find m a

/-- Puts a byte at its place in the rising list. -/
def Memory.insert : Memory → Nat → Byte → Memory
  | [], a, b => [(a, b)]
  | (k, v) :: m, a, b =>
    if a < k then (a, b) :: (k, v) :: m
    else if a = k then (a, b) :: m
    else (k, v) :: Memory.insert m a b

/-- Takes an address out of the list. -/
def Memory.erase (m : Memory) (a : Nat) : Memory := m.filter (fun p => p.1 ≠ a)

/-- The byte at an address (R62): the last one written, or the reset contents (R76 (c)). -/
def Memory.readByte (c : Config) (m : Memory) (a : Nat) : Byte :=
  (Memory.find m a).getD (c.resetByte a)

/-- Stores one byte, keeping the canonical form. -/
def Memory.writeByte (c : Config) (m : Memory) (a : Nat) (b : Byte) : Memory :=
  if b = c.resetByte a then Memory.erase m a else Memory.insert m a b

/-- `mem[a], mem[a+1], …`, `n` bytes, lowest address first. -/
def Memory.readBytes (c : Config) (m : Memory) (a : Nat) : Nat → List Byte
  | 0 => []
  | n + 1 => Memory.readByte c m a :: Memory.readBytes c m (a + 1) n

/-- Copies the bytes of a list to ascending addresses from `a`. -/
def Memory.writeBytes (c : Config) (m : Memory) (a : Nat) : List Byte → Memory
  | [] => m
  | b :: bs => Memory.writeBytes c (Memory.writeByte c m a b) (a + 1) bs

/-- The byte of memory at an address, as a reader of the state sees it. -/
def State.byteAt (s : State) (a : Nat) : Byte := Memory.readByte s.cfg s.mem a

/-- The one bounds check, on unbounded integers and on the whole range (R12, R63, R64). -/
def inBounds (a n : Nat) : Bool := a + n ≤ memSize

/-- `MemRead(addr, n)` (R12, R62, R63): the bytes, or `none` where it raises `OutOfBounds`. -/
def State.memRead (s : State) (a n : Nat) : Option (List Byte) :=
  if inBounds a n then some (Memory.readBytes s.cfg s.mem a n) else none

/-- `MemWrite(addr, n, v)` (R12, R64): the state with the bytes stored, or `none` where it raises `OutOfBounds`, no byte
being written then. -/
def State.memWrite (s : State) (a : Nat) (bs : List Byte) : Option State :=
  if inBounds a bs.length then some { s with mem := Memory.writeBytes s.cfg s.mem a bs } else none

/-! ## Registers -/

/-- `V[x]` (R21). -/
def State.reg (s : State) (x : Nibble) : Byte := s.V[x.toNat]'x.isLt

/-- `V[x] <- v` (R11, R21). -/
def State.setReg (s : State) (x : Nibble) (v : Byte) : State := { s with V := s.V.set x.toNat v x.isLt }

/-- The index of the flag register VF (R6, R22). -/
def flagReg : Nibble := 0xF#4

/-- `VF <- v`: VF has no storage of its own, it is `V[15]` (R22). -/
def State.setVF (s : State) (v : Byte) : State := s.setReg flagReg v

/-- `[V[i], V[i+1], …]`, `n` registers (R176). -/
def State.regsFrom (s : State) (i : Nat) : Nat → List Byte
  | 0 => []
  | n + 1 => s.reg (BitVec.ofNat 4 i) :: s.regsFrom (i + 1) n

/-- `V[i] <- b[0], V[i+1] <- b[1], …` (R177). -/
def State.setRegsFrom (s : State) (i : Nat) : List Byte → State
  | [] => s
  | b :: bs => (s.setReg (BitVec.ofNat 4 i) b).setRegsFrom (i + 1) bs

/-- `I <- v` (R24). -/
def State.setI (s : State) (v : Word) : State := { s with I := v }

/-- `DT <- v` (R29). -/
def State.setDT (s : State) (v : Byte) : State := { s with DT := v }

/-- `ST <- v` (R29). -/
def State.setST (s : State) (v : Byte) : State := { s with ST := v }

/-! ## The program counter -/

/-- `PC <- target`: no alignment and no range check (R27, R120). -/
def State.jumpTo (s : State) (target : Word) : State := { s with PC := target }

/-- A conditional skip: `PC <- (PC + 2) mod 65536` if the condition holds (R25, R26). -/
def State.skipIf (s : State) (cond : Bool) : State := if cond then s.jumpTo (s.PC + 2) else s

/-- The fetch advance, done before dispatch (R25, R51 step 3). A step that goes on has answered `Ok` unless its rule
raises a fault (R53). -/
def State.advance (s : State) : State := { s with PC := s.PC + 2, result := none }

/-- The address the instruction in execution was fetched from: `PC` holds `a + 2` there (R25, R226, log 8). -/
def State.opPC (s : State) : Word := s.PC - 2

/-! ## The call stack (R28) -/

/-- Whether a push finds the stack full (R28, R223). -/
def State.stackFull (s : State) : Bool := s.cfg.stackDepth ≤ s.SP

/-- `stack[SP] <- v; SP <- SP + 1` (R28). -/
def State.push (s : State) (v : Word) : State := { s with stack := s.stack.set s.SP v, SP := s.SP + 1 }

/-- The entry that a pop yields, `stack[SP-1]` (R28). -/
def State.stackTop (s : State) : Word := s.stack.getD (s.SP - 1) 0

/-- `SP <- SP - 1`; the popped entry keeps its contents (R28). -/
def State.pop (s : State) : State := { s with SP := s.SP - 1 }

/-! ## The framebuffer (R31) -/

/-- The pixel of a row and a column; false off the grid, which no rule asks for (R193). -/
def Framebuffer.pixel (fb : Framebuffer) (py px : Nat) : Bool := (fb[py]?.getD 0).getLsbD px

/-- `fb[py][px] <- fb[py][px] ^ 1` (R192). -/
def Framebuffer.flip (fb : Framebuffer) (py px : Nat) : Framebuffer :=
  if h : py < 32 then fb.set py (fb[py] ^^^ BitVec.twoPow 64 px) h else fb

/-- Every pixel 0 (R191). -/
def Framebuffer.clear : Framebuffer := Vector.replicate 32 0

/-! ## The keypad (R30, R203) -/

/-- `key[k]` (R30). -/
def State.keyDown (s : State) (k : Nibble) : Bool := s.key[k.toNat]'k.isLt

/-- The least pressed key, if any (R203). -/
def State.lowestKey (s : State) : Option Nibble :=
  ((List.range 16).map (BitVec.ofNat 4)).find? s.keyDown

/-- `KeyPoll(r)` (R203): the poll shared by `Fx0A` and by a step taken while awaiting. -/
def State.keyPoll (s : State) (r : Nibble) : State :=
  match s.lowestKey with
  | some k => { s.setReg r (k.zeroExtend 8) with awaiting := false }
  | none => { s with awaiting := true, waitX := r }

/-! ## The random byte (R160) -/

/-- The byte `rnd` of this step: the one the host gave with it, else the next of the free stream (log 3). -/
def State.randomByte (s : State) : Byte := s.rndIn.getD (Config.randomByte s.draws)

/-- The byte is used up: the next draw is a fresh one (U11, log 3). -/
def State.randomUsed (s : State) : State :=
  match s.rndIn with
  | some _ => { s with rndIn := none }
  | none => { s with draws := s.draws + 1 }

/-! ## Taking a fault -/

/-- TAKING A FAULT (R13, R51 step 5, R226 to R229): the fault record is the step's result, delivered to the host, and
nothing else changes. The caller's state is the one after the fetch advance for an execute fault, so `PC = a + 2` stands
(R228), and the one before it for a fetch fault, so that nothing changes (R227). There is no handler inside the machine
and no return from a fault (R233, R235). -/
def takeFault (f : Fault) (s : State) : Result := .next { s with result := some f }

/-- The `kind` of a fault record, as the cause code of R226. -/
def Fault.code : Fault → Nat
  | .outOfBounds _ _ _ => 1
  | .stackUnderflow _ _ => 2
  | .stackOverflow _ _ => 3
  | .unsupportedLegacyOp _ _ => 4
  | .invalidOpcode _ _ => 5

/-- The `pc` of a fault record (R226). -/
def Fault.pc : Fault → Word
  | .outOfBounds pc _ _ | .stackUnderflow pc _ | .stackOverflow pc _ | .unsupportedLegacyOp pc _
  | .invalidOpcode pc _ => pc

/-- The `word` of a fault record (R226). -/
def Fault.word : Fault → Word
  | .outOfBounds _ w _ | .stackUnderflow _ w | .stackOverflow _ w | .unsupportedLegacyOp _ w
  | .invalidOpcode _ w => w

/-- The `addr` of a fault record: 0x0000 but for `OutOfBounds` (R226). -/
def Fault.addr : Fault → Word
  | .outOfBounds _ _ a => a
  | .stackUnderflow _ _ | .stackOverflow _ _ | .unsupportedLegacyOp _ _ | .invalidOpcode _ _ => 0

/-- The cause code of a step's result: 0 for `Ok` (R226). -/
def resultCode : Option Fault → Nat
  | none => 0
  | some f => f.code

/-- An access through `I` by the instruction `i`: the rest of the rule on success, `OutOfBounds` with `addr = I`
otherwise (R221, R226). -/
def orOutOfBounds (i : Instr) (s : State) (answer : Option State) : Result :=
  match answer with
  | some t => .next t
  | none => takeFault (.outOfBounds s.opPC (encode i) s.I) s

end Sys2Proof.Machine
end

