-- ==== Sys2Proof/Machine/Flags.lean ====
section
/-! DEFINITION. Every value an instruction writes to VF as a flag (R22): carry, the two strict comparisons, the bit
shifted out and the sprite collision. -/

namespace Sys2Proof.Machine

/-- A truth value as the byte 0 or 1 a flag write stores. -/
def flagByte (b : Bool) : Byte := if b then 1 else 0

/-- The carry of `8xy4`: 1 when the sum before narrowing exceeds 255 (R141, R148). -/
def carryFlag (vx vy : Byte) : Byte := flagByte (255 < vx.toNat + vy.toNat)

/-- The flag of `8xy5` and `8xy7`: 1 when the minuend is strictly greater than the subtrahend, 0 on borrow and on
equality (R141, R149, R151, U9). -/
def greaterFlag (minuend subtrahend : Byte) : Byte := flagByte (subtrahend.toNat < minuend.toNat)

/-- The bit `8xy6` shifts out, bit 0 (R150). -/
def shiftedOutRight (v : Byte) : Byte := flagByte (v.getLsbD 0)

/-- The bit `8xyE` shifts out, bit 7 (R152). -/
def shiftedOutLeft (v : Byte) : Byte := flagByte (v.getLsbD 7)

/-- The collision flag of `Dxyn`, always written (R192). -/
def collisionFlag (coll : Bool) : Byte := flagByte coll

end Sys2Proof.Machine
end

