-- ==== Sys2Proof/Machine/Operands.lean ====
section
/-! DEFINITION. The operand forms (R93, R94): how a field or a register becomes the value an instruction works on. -/

namespace Sys2Proof.Machine

/-- `zext_16(nnn)` (R10, R93). -/
def zextAddr (nnn : Addr) : Word := nnn.zeroExtend 16

/-- `zext_16` of a byte (R10). -/
def zextByte (b : Byte) : Word := b.zeroExtend 16

/-- `V[x][3:0]`: a register's value as a key index or a font digit is its low nibble (R172, R200, R201, D10, log 4). -/
def lowNibble (b : Byte) : Nibble := b.extractLsb' 0 4

/-- The operand of the shifts: `V[x]` or `V[y]`, as SHIFT_SOURCE says (R150, R152). -/
def shiftOperand (s : State) (x y : Nibble) : Byte :=
  match s.cfg.shiftSource with
  | .vx => s.reg x
  | .vy => s.reg y

/-- The start address of every data access: all 16 bits of `I`, unmasked, as an unbounded integer (R24, R173). -/
def baseAddress (s : State) : Nat := s.I.toNat

/-- The address of a digit's glyph: `FONT_BASE + 5 * d` (R172). -/
def glyphAddress (c : Config) (d : Nibble) : Word := c.fontBase + BitVec.ofNat 16 (5 * d.toNat)

/-- The hundreds, tens and ones digits of a byte (R175). -/
def decimalDigits (v : Byte) : List Byte :=
  [BitVec.ofNat 8 (v.toNat / 100), BitVec.ofNat 8 (v.toNat / 10 % 10), BitVec.ofNat 8 (v.toNat % 10)]

/-- The registers `V0` to `Vx` inclusive (R176). -/
def blockRegs (s : State) (x : Nibble) : List Byte := s.regsFrom 0 (x.toNat + 1)

/-- The column of a sprite's origin, `vx mod 64` (R192). -/
def originX (vx : Byte) : Nat := vx.toNat % 64

/-- The row of a sprite's origin, `vy mod 32` (R192). -/
def originY (vy : Byte) : Nat := vy.toNat % 32

/-- The sprite bit of column offset `b`: `byte[7 - b]`, most significant bit leftmost (R190). -/
def spriteBit (row : Byte) (b : Nat) : Bool := row.getLsbD (7 - b)

/-- The row and column a sprite pixel falls on under an edge policy, or `none` where it is dropped (R192). -/
def edgePixel (e : SpriteEdge) (py px : Nat) : Option (Nat × Nat) :=
  match e with
  | .clip => if 63 < px ∨ 31 < py then none else some (py, px)
  | .wrap => some (py % 32, px % 64)

end Sys2Proof.Machine
end

