-- ==== Sys2Proof/Machine/Alu.lean ====
section
/-! DEFINITION. Register load, arithmetic, logic, shift and random (41_alu.md). Every operand is read before any write,
and where two writes meet in VF the later one stays (R140). -/

namespace Sys2Proof.Machine

/-- `6xkk` LD Vx, kk (R142). -/
def execLdImm (x : Nibble) (kk : Byte) (s : State) : Result := .next (s.setReg x kk)

/-- `7xkk` ADD Vx, kk (R143): wraps mod 256 and reports no carry. -/
def execAddImm (x : Nibble) (kk : Byte) (s : State) : Result := .next (s.setReg x (s.reg x + kk))

/-- `8xy0` LD Vx, Vy (R144). -/
def execLdReg (x y : Nibble) (s : State) : Result := .next (s.setReg x (s.reg y))

/-- `8xy1` OR Vx, Vy (R145): VF is left alone. -/
def execOrReg (x y : Nibble) (s : State) : Result := .next (s.setReg x (s.reg x ||| s.reg y))

/-- `8xy2` AND Vx, Vy (R146): VF is left alone. -/
def execAndReg (x y : Nibble) (s : State) : Result := .next (s.setReg x (s.reg x &&& s.reg y))

/-- `8xy3` XOR Vx, Vy (R147): VF is left alone. -/
def execXorReg (x y : Nibble) (s : State) : Result := .next (s.setReg x (s.reg x ^^^ s.reg y))

/-- `8xy4` ADD Vx, Vy (R148): the sum mod 256 to Vx, then the carry to VF, written last. -/
def execAddReg (x y : Nibble) (s : State) : Result :=
  .next ((s.setReg x (s.reg x + s.reg y)).setVF (carryFlag (s.reg x) (s.reg y)))

/-- `8xy5` SUB Vx, Vy (R149): VF, then the difference to Vx, written last. -/
def execSubReg (x y : Nibble) (s : State) : Result :=
  .next ((s.setVF (greaterFlag (s.reg x) (s.reg y))).setReg x (s.reg x - s.reg y))

/-- `8xy6` SHR Vx, Vy (R150): VF the bit shifted out, then the shifted value to Vx, written last. -/
def execShrReg (x y : Nibble) (s : State) : Result :=
  .next ((s.setVF (shiftedOutRight (shiftOperand s x y))).setReg x (shiftOperand s x y >>> 1))

/-- `8xy7` SUBN Vx, Vy (R151): as `8xy5` with the operands exchanged, whatever SHIFT_SOURCE is. -/
def execSubnReg (x y : Nibble) (s : State) : Result :=
  .next ((s.setVF (greaterFlag (s.reg y) (s.reg x))).setReg x (s.reg y - s.reg x))

/-- `8xyE` SHL Vx, Vy (R152): VF the bit shifted out, then the shifted value to Vx, written last. -/
def execShlReg (x y : Nibble) (s : State) : Result :=
  .next ((s.setVF (shiftedOutLeft (shiftOperand s x y))).setReg x (shiftOperand s x y <<< 1))

/-- `Cxkk` RND Vx, kk (R160): `V[x] <- rnd & kk`, the byte `rnd` being the step's input or a free value (log 3). -/
def execRnd (x : Nibble) (kk : Byte) (s : State) : Result := .next (s.randomUsed.setReg x (s.randomByte &&& kk))

end Sys2Proof.Machine
end

