-- ==== Sys2Proof/Machine/Control.lean ====
section
/-! DEFINITION. Control transfer (40_control_flow.md). In every meaning `PC` already holds `a + 2` (R25). -/

namespace Sys2Proof.Machine

/-- `00EE` RET (R121): `StackUnderflow` on an empty stack, else `SP <- SP - 1; PC <- stack[SP]`. -/
def execRet (s : State) : Result :=
  if s.SP = 0 then takeFault (.stackUnderflow s.opPC (encode .ret)) s
  else .next (s.pop.jumpTo s.stackTop)

/-- `0nnn` SYS nnn (R122): always `UnsupportedLegacyOp`; `nnn` only appears in the record's word. -/
def execSys (nnn : Addr) (s : State) : Result :=
  takeFault (.unsupportedLegacyOp s.opPC (encode (.sys nnn))) s

/-- `1nnn` JP nnn (R123). -/
def execJp (nnn : Addr) (s : State) : Result := .next (s.jumpTo (zextAddr nnn))

/-- `2nnn` CALL nnn (R124): `StackOverflow` on a full stack, else push `PC`, which holds `a + 2`, and jump. -/
def execCall (nnn : Addr) (s : State) : Result :=
  if s.stackFull then takeFault (.stackOverflow s.opPC (encode (.call nnn))) s
  else .next ((s.push s.PC).jumpTo (zextAddr nnn))

/-- `3xkk` SE Vx, kk (R125). -/
def execSeImm (x : Nibble) (kk : Byte) (s : State) : Result := .next (s.skipIf (s.reg x == kk))

/-- `4xkk` SNE Vx, kk (R126). -/
def execSneImm (x : Nibble) (kk : Byte) (s : State) : Result := .next (s.skipIf (s.reg x != kk))

/-- `5xy0` SE Vx, Vy (R127). -/
def execSeReg (x y : Nibble) (s : State) : Result := .next (s.skipIf (s.reg x == s.reg y))

/-- `9xy0` SNE Vx, Vy (R128). -/
def execSneReg (x y : Nibble) (s : State) : Result := .next (s.skipIf (s.reg x != s.reg y))

/-- `Bnnn` JP V0, nnn (R131): the offset register is always V0. -/
def execJpV0 (nnn : Addr) (s : State) : Result := .next (s.jumpTo (zextAddr nnn + zextByte (s.reg 0x0#4)))

end Sys2Proof.Machine
end

