-- ==== Sys2Proof/Machine/Display.lean ====
section
/-! DEFINITION. Display instructions (43_display.md). -/

namespace Sys2Proof.Machine

/-- `00E0` CLS (R191): every pixel 0, `redraw` set, VF left alone. -/
def execCls (s : State) : Result := .next { s with fb := Framebuffer.clear, redraw := true }

/-- One sprite bit at row `py` and column `px`, before the edge policy: a set bit flips its pixel, and meeting a set
pixel is a collision (R192, C7). -/
def drawBit (e : SpriteEdge) (bit : Bool) (py px : Nat) (d : Framebuffer × Bool) : Framebuffer × Bool :=
  match edgePixel e py px with
  | none => d
  | some (qy, qx) => if bit then (d.1.flip qy qx, d.2 || d.1.pixel qy qx) else d

/-- The eight bits of one sprite row, `b` from 0 to 7 (R190, R192). -/
def drawRow (e : SpriteEdge) (row : Byte) (py x0 : Nat) (d : Framebuffer × Bool) : Framebuffer × Bool :=
  (List.range 8).foldl (fun d b => drawBit e (spriteBit row b) py (x0 + b) d) d

/-- The rows of a sprite from row `py` down (R192). -/
def drawRows (e : SpriteEdge) (py x0 : Nat) : List Byte → Framebuffer × Bool → Framebuffer × Bool
  | [], d => d
  | row :: rows, d => drawRows e (py + 1) x0 rows (drawRow e row py x0 d)

/-- A whole sprite at an origin: the framebuffer after it and whether a set pixel was met (R192). -/
def drawSprite (e : SpriteEdge) (vx vy : Byte) (rows : List Byte) (fb : Framebuffer) : Framebuffer × Bool :=
  drawRows e (originY vy) (originX vx) rows (fb, false)

/-- The writes of `Dxyn` once its rows are read: the pixels, VF the collision flag, always written, and `redraw`
(R192). -/
def drawWrites (x y : Nibble) (rows : List Byte) (s : State) : State :=
  { s.setVF (collisionFlag (drawSprite s.cfg.spriteEdge (s.reg x) (s.reg y) rows s.fb).2) with
    fb := (drawSprite s.cfg.spriteEdge (s.reg x) (s.reg y) rows s.fb).1
    redraw := true }

/-- `Dxyn` DRW Vx, Vy, n (R192): `n` rows are read at `I` before any pixel changes. -/
def execDrw (x y n : Nibble) (s : State) : Result :=
  orOutOfBounds (.drw x y n) s ((s.memRead (baseAddress s) n.toNat).map (fun rows => drawWrites x y rows s))

end Sys2Proof.Machine
end

