-- ==== Sys2Proof/Machine/IndexMemory.lean ====
section
/-! DEFINITION. Index register and memory instructions (42_index_memory.md). The range of an access is checked once,
before any byte moves, and `I` is never changed by an access (R173). -/

namespace Sys2Proof.Machine

/-- `Annn` LD I, nnn (R170). -/
def execLdI (nnn : Addr) (s : State) : Result := .next (s.setI (zextAddr nnn))

/-- `Fx1E` ADD I, Vx (R171): mod 65536, no mask to 12 bits, no flag. -/
def execAddI (x : Nibble) (s : State) : Result := .next (s.setI (s.I + zextByte (s.reg x)))

/-- `Fx29` LD F, Vx (R172): the glyph address of the low nibble of Vx; memory is not read. -/
def execLdF (x : Nibble) (s : State) : Result := .next (s.setI (glyphAddress s.cfg (lowNibble (s.reg x))))

/-- `Fx33` LD B, Vx (R175): the three decimal digits at `I`, `I + 1`, `I + 2`. -/
def execLdB (x : Nibble) (s : State) : Result :=
  orOutOfBounds (.ldB x) s (s.memWrite (baseAddress s) (decimalDigits (s.reg x)))

/-- `Fx55` LD [I], Vx (R176): `V0` to `Vx` at ascending addresses from `I`. -/
def execStoreRegs (x : Nibble) (s : State) : Result :=
  orOutOfBounds (.storeRegs x) s (s.memWrite (baseAddress s) (blockRegs s x))

/-- `Fx65` LD Vx, [I] (R177): `V0` to `Vx` from ascending addresses from `I`. -/
def execLoadRegs (x : Nibble) (s : State) : Result :=
  orOutOfBounds (.loadRegs x) s ((s.memRead (baseAddress s) (x.toNat + 1)).map (s.setRegsFrom 0))

end Sys2Proof.Machine
end

