-- ==== Sys2Proof/Machine/KeypadTimers.lean ====
section
/-! DEFINITION. Keypad and timer instructions (44_keypad_timers.md). -/

namespace Sys2Proof.Machine

/-- `Ex9E` SKP Vx (R200). -/
def execSkp (x : Nibble) (s : State) : Result := .next (s.skipIf (s.keyDown (lowNibble (s.reg x))))

/-- `ExA1` SKNP Vx (R201). -/
def execSknp (x : Nibble) (s : State) : Result := .next (s.skipIf (!s.keyDown (lowNibble (s.reg x))))

/-- `Fx07` LD Vx, DT (R204). -/
def execLdVxDT (x : Nibble) (s : State) : Result := .next (s.setReg x s.DT)

/-- `Fx0A` LD Vx, K (R202): polls at once; the fetch advance is never undone. -/
def execLdVxK (x : Nibble) (s : State) : Result := .next (s.keyPoll x)

/-- `Fx15` LD DT, Vx (R205). -/
def execLdDTVx (x : Nibble) (s : State) : Result := .next (s.setDT (s.reg x))

/-- `Fx18` LD ST, Vx (R206). -/
def execLdSTVx (x : Nibble) (s : State) : Result := .next (s.setST (s.reg x))

end Sys2Proof.Machine
end

