-- ==== Sys2Proof/Machine/Fetch.lean ====
section
/-! DEFINITION. The stages of a step around its execute stage (R51, R75), which `step` calls. -/

namespace Sys2Proof.Machine

/-- Fetch (R51 step 2, R66, R75): the word at `PC`, the byte at the lower address the more significant, or `none` where
`PC + 2 > 4096`. -/
def State.fetch (s : State) : Option Word :=
  if inBounds s.PC.toNat 2 then some (wordOfBytes (s.byteAt s.PC.toNat) (s.byteAt (s.PC.toNat + 1))) else none

/-- A fetch that fails (R51 step 2, R226, R227): nothing changes, `PC` included. -/
def fetchFault (s : State) : Result := takeFault (.outOfBounds s.PC 0x0000#16 s.PC) s

/-- An illegal word (R104, R225, R228), in the state after the fetch advance. -/
def illegalWord (w : Word) (s : State) : Result := takeFault (.invalidOpcode s.opPC w) s

/-- A step taken while awaiting a key (R33, R51 step 1): nothing is fetched, the keypad is polled, the answer is `Ok`. -/
def awaitStep (s : State) : Result := .next { s.keyPoll s.waitX with result := none }

/-- Stores a word where a fetch at `a` reads it (R66). -/
def State.storeWord (s : State) (a : Nat) (w : Word) : State :=
  { s with mem := Memory.writeBytes s.cfg s.mem a [highByte w, lowByte w] }

/-- A state whose `PC` can be fetched from: the same, or with `PC` put back to 0x200 (log 5). -/
def State.fetchable (s : State) : State := if inBounds s.PC.toNat 2 then s else s.jumpTo 0x0200#16

/-- The state with a word where the very next step fetches it: a core that awaits a key is taken out of the wait, and a
`PC` from which nothing can be fetched is put back to 0x200 (log 5). -/
def State.placeWord (s : State) (w : Word) : State :=
  { s.fetchable.storeWord s.fetchable.PC.toNat w with awaiting := false }

end Sys2Proof.Machine
end

