-- ==== Sys2Proof/Machine/Step.lean ====
section
/-! DEFINITION. The `Step` command (R51). -/

namespace Sys2Proof.Machine

/-- `Step` (R51): poll while awaiting; else fetch, advance `PC`, decode, execute. -/
def step (s : State) : Host.Outcome State Fault Refusal :=
  if s.awaiting then awaitStep s
  else
    match s.fetch with
    | none => fetchFault s
    | some w =>
      match decode w with
      | .error _ => illegalWord w s.advance
      | .ok i => exec i s.advance

/-- The state whose next step fetches and runs the instruction of an opcode-table word (log 5). -/
def State.withFetchWord (s : State) (nbits w : Nat) : State := s.placeWord (tableWord nbits w)

end Sys2Proof.Machine
end

