-- ==== Sys2Proof/Machine/Commands.lean ====
section
/-! DEFINITION. The six commands of the host (R50), each one atomic transition, the outputs (R52), and schedules of
commands (R50, R248). -/

namespace Sys2Proof.Machine

/-- The commands of R50. `SetKey` exists for the keys 0 to 15 only, by the type of its index (R242, U19). -/
inductive Command where
  /-- `Reset` (R260). -/
  | reset
  /-- `Load(bytes)` (R70). -/
  | load (bytes : List Byte)
  /-- `Step(rnd)` (R51). -/
  | step (rnd : Byte)
  /-- `Tick` (R240). -/
  | tick
  /-- `SetKey(k, b)` (R242). -/
  | setKey (k : Nibble) (b : Bool)
  /-- `AckRedraw` (R243). -/
  | ackRedraw
  deriving DecidableEq, Repr

/-- `Reset` (R260): the construction state. The parameters are not state and stay (R16, log 1), and so does the count of
free bytes drawn, so that a later draw is a fresh one (log 3). -/
def State.doReset (s : State) : State := { State.resetWith s.cfg with draws := s.draws }

/-- `Load(bytes)` (R70): the bytes copied verbatim from 0x200, or a fault that writes nothing. It changes memory only. -/
def State.doLoad (s : State) (bytes : List Byte) : State :=
  match s.memWrite progBase bytes with
  | some t => { t with result := none }
  | none => { s with result := some (.outOfBounds s.PC 0x0000#16 0x0200#16) }

/-- A timer one down, floored at 0 (R240). -/
def countDown (t : Byte) : Byte := if 0 < t.toNat then t - 1 else t

/-- `Tick` (R240): both timers, and nothing else. -/
def State.doTick (s : State) : State := { s with DT := countDown s.DT, ST := countDown s.ST }

/-- `SetKey(k, b)` (R242): one key flag, and nothing else. -/
def State.doSetKey (s : State) (k : Nibble) (b : Bool) : State := { s with key := s.key.set k.toNat b k.isLt }

/-- `AckRedraw` (R243). -/
def State.doAckRedraw (s : State) : State := { s with redraw := false }

/-- The state after an answer that goes on, changed by `f`. -/
def mapNext (f : State → State) : Result → Result
  | .next s => .next (f s)
  | .fault r => .fault r
  | .refused r => .refused r

/-- `Step(rnd)` (R50, R51): a step that has the byte `rnd` at hand; the byte does not outlive the command (R53). -/
def stepWith (rnd : Byte) (s : State) : Result :=
  mapNext (fun t => { t with rndIn := none }) (step { s with rndIn := some rnd })

/-- One command (R50). -/
def command (c : Command) (s : State) : Result :=
  match c with
  | .reset => .next s.doReset
  | .load bytes => .next (s.doLoad bytes)
  | .step rnd => stepWith rnd s
  | .tick => .next s.doTick
  | .setKey k b => .next (s.doSetKey k b)
  | .ackRedraw => .next s.doAckRedraw

/-- A finite schedule: the commands in the order the host issues them, each complete before the next (R50, R76). DESIGN
CHOICE (log 10): the spec defines no end of a run (R274); here a run ends where its list of commands ends, and neither a
jump to itself nor a fault ends it. -/
def schedule : List Command → State → Result
  | [], s => .next s
  | c :: cs, s =>
    match command c s with
    | .next t => schedule cs t
    | .fault r => .fault r
    | .refused r => .refused r

/-! ## Outputs (R52), pure functions of the state -/

/-- `pixel(x, y)`: `fb[y][x]`, for x below 64 and y below 32 (R52). -/
def State.pixelOut (s : State) (x : BitVec 6) (y : BitVec 5) : Bool := s.fb.pixel y.toNat x.toNat

/-- `redraw` (R52). -/
def State.redrawOut (s : State) : Bool := s.redraw

/-- `beeping`: whether the sound timer is nonzero (R29, R52). -/
def State.beeping (s : State) : Bool := s.ST != 0

/-- `awaiting` (R52). -/
def State.awaitingOut (s : State) : Bool := s.awaiting

end Sys2Proof.Machine
end

