-- ==== Sys2Proof/Safety.lean ====
section
/-! DEFINITION. What holds of every state a run reaches, and what a safe run is, in the terms statements use. -/

namespace Sys2Proof.Machine

/-- The memory is in its canonical form (R20, R60, log 9). -/
abbrev State.MemOk (s : State) : Prop := Memory.wf s.cfg s.mem

/-- The stack is an array of STACK_DEPTH entries with 0 to STACK_DEPTH of them valid (R20, R28, R34). -/
abbrev State.StackOk (s : State) : Prop := s.stack.length = s.cfg.stackDepth ∧ s.SP ≤ s.cfg.stackDepth

/-- The reach of control (R27): `PC` is at most 0x10FE, and every stack entry was pushed as at most 4096. -/
abbrev State.ControlOk (s : State) : Prop := s.PC.toNat ≤ 0x10FE ∧ ∀ w ∈ s.stack, w.toNat ≤ 4096

/-- The invariant of every run: parameters within their constraints (R7), memory, stack and control as above. -/
abbrev State.Inv (s : State) : Prop := s.cfg.wf ∧ s.MemOk ∧ s.StackOk ∧ s.ControlOk

/-- A step that answered `Ok` (R53): no fault. -/
def answersOk : Result → Bool
  | .next s => s.result.isNone
  | .fault _ => false
  | .refused _ => false

/-- The commands that answer with a result: `Load` and `Step` (R50). -/
def Command.hasResult : Command → Bool
  | .load _ | .step _ => true
  | .reset | .tick | .setKey _ _ | .ackRedraw => false

/-- A schedule no command of which answers a fault (R50, R248), up to the end of its list (log 10). -/
def safeRun : List Command → State → Bool
  | [], _ => true
  | c :: cs, s =>
    match command c s with
    | .next t => (!c.hasResult || t.result.isNone) && safeRun cs t
    | .fault _ => false
    | .refused _ => false

/-! ## Words the statements use -/

/-- The word a fetch reads: the byte at `PC` is the high one (R66). -/
def State.wordAtPC (s : State) : Word :=
  wordOfBytes (s.byteAt s.PC.toNat) (s.byteAt (s.PC.toNat + 1))

/-- The frame of an instruction that writes general registers only, those of `dst`: every other register, every byte of
memory and every other piece of state is as before. -/
def OnlyRegs (dst : Nibble → Prop) (s t : State) : Prop :=
  (∀ r, ¬ dst r → t.reg r = s.reg r) ∧ (∀ a, t.byteAt a = s.byteAt a) ∧ t = { s with V := t.V }

/-- The frame of an instruction that stores `n` bytes from address `a`: every byte outside them and every other piece of
state is as before. -/
def OnlyBytes (a n : Nat) (s t : State) : Prop :=
  (∀ k, k < a ∨ a + n ≤ k → t.byteAt k = s.byteAt k) ∧ t = { s with mem := t.mem }

/-- `PC` after a successful step of an instruction fetched from `s.PC`, row by row of R26. -/
def pcAfter (i : Instr) (s : State) : Word :=
  match i with
  | .jp nnn | .call nnn => nnn.zeroExtend 16
  | .ret => s.stack.getD (s.SP - 1) 0
  | .jpV0 nnn => BitVec.ofNat 16 (nnn.toNat + (s.reg 0x0#4).toNat)
  | .seImm x kk => if s.reg x = kk then s.PC + 4 else s.PC + 2
  | .sneImm x kk => if s.reg x ≠ kk then s.PC + 4 else s.PC + 2
  | .seReg x y => if s.reg x = s.reg y then s.PC + 4 else s.PC + 2
  | .sneReg x y => if s.reg x ≠ s.reg y then s.PC + 4 else s.PC + 2
  | .skp x => if s.keyDown (BitVec.ofNat 4 (s.reg x).toNat) then s.PC + 4 else s.PC + 2
  | .sknp x => if s.keyDown (BitVec.ofNat 4 (s.reg x).toNat) then s.PC + 2 else s.PC + 4
  | .cls | .sys _ | .ldImm _ _ | .addImm _ _ | .ldReg _ _ | .orReg _ _ | .andReg _ _ | .xorReg _ _ | .addReg _ _
  | .subReg _ _ | .shrReg _ _ | .subnReg _ _ | .shlReg _ _ | .ldI _ | .rnd _ _ | .drw _ _ _ | .ldVxDT _ | .ldVxK _
  | .ldDTVx _ | .ldSTVx _ | .addI _ | .ldF _ | .ldB _ | .storeRegs _ | .loadRegs _ => s.PC + 2

/-- Every piece of state at its reset value (R261), under the parameters `c`. -/
def IsResetState (c : Config) (t : State) : Prop :=
  t.PC = 0x0200 ∧ t.I = 0 ∧ t.SP = 0 ∧ t.DT = 0 ∧ t.ST = 0 ∧ t.redraw = false ∧ t.awaiting = false ∧ t.waitX = 0 ∧
  t.cfg = c ∧ t.stack = List.replicate c.stackDepth 0 ∧ (∀ r, t.reg r = 0) ∧ (∀ k, t.keyDown k = false) ∧
  (∀ x y, t.pixelOut x y = false) ∧ t.beeping = false ∧
  (∀ (i : Nat) (h : i < 80), t.byteAt (c.fontBase.toNat + i) = c.fontData[i]) ∧
  ∀ a, a < c.fontBase.toNat ∨ c.fontBase.toNat + 80 ≤ a → t.byteAt a = 0

/-- The write rows of the register access table (10_state.md, section 2): `V[x]` of the instructions that write their
`Vx`, VF of the six that write it as a flag, `V0` to `Vx` of the block load. -/
def mayWrite (i : Instr) (r : Nibble) : Prop :=
  match i with
  | .ldImm x _ | .addImm x _ | .ldReg x _ | .orReg x _ | .andReg x _ | .xorReg x _ | .rnd x _ | .ldVxDT x
  | .ldVxK x => r = x
  | .addReg x _ | .subReg x _ | .shrReg x _ | .subnReg x _ | .shlReg x _ => r = x ∨ r = 0xF#4
  | .drw _ _ _ => r = 0xF#4
  | .loadRegs x => r.toNat ≤ x.toNat
  | .cls | .ret | .sys _ | .jp _ | .call _ | .seImm _ _ | .sneImm _ _ | .seReg _ _ | .sneReg _ _ | .ldI _ | .jpV0 _
  | .skp _ | .sknp _ | .ldDTVx _ | .ldSTVx _ | .addI _ | .ldF _ | .ldB _ | .storeRegs _ => False

/-- Meanings one after another, each on the state the one before left. -/
def execAll : List Instr → State → Result
  | [], s => .next s
  | i :: is, s =>
    match exec i s with
    | .next t => execAll is t
    | .fault r => .fault r
    | .refused r => .refused r

/-- The pixels a sprite's set bits fall on, under the two edge policies, stated as sets (43_display.md, section 3): the
sprite bit of row `r` and column offset `b` is bit `7 - b` of the byte at `I + r`. -/
def spriteCovers (s : State) (x y n : Nibble) (px : BitVec 6) (py : BitVec 5) : Prop :=
  ∃ r b : Nat, r < n.toNat ∧ b < 8 ∧ (s.byteAt (s.I.toNat + r)).getLsbD (7 - b) = true ∧
    match s.cfg.spriteEdge with
    | .clip => py.toNat = (s.reg y).toNat % 32 + r ∧ px.toNat = (s.reg x).toNat % 64 + b
    | .wrap => py.toNat = ((s.reg y).toNat % 32 + r) % 32 ∧ px.toNat = ((s.reg x).toNat % 64 + b) % 64

end Sys2Proof.Machine
end

