-- ==== Sys2Proof/Certificates/Slice0/Obligations.lean ====
section
/-! DEFINITION. The statements for the provers. In a statement about `exec`,
`s` is the state a meaning starts from: `PC` there holds the address of the following instruction (R25). -/

open Sys2Proof Sys2Proof.Machine

/-! ## Encoding -/

/-- Decode and encode agree: every well-formed instruction, with every operand at every value, is what the decoder reads
from its word, and from its two bytes at the head of a byte string (R90, R92, R100). -/
def Obligations.DecodeOfEncodeIsTheInstruction : Prop :=
  ∀ i : Instr, i.wf = true →
    decode (encode i) = .ok i ∧ ∀ rest, decodeBytes (encodeBytes i ++ rest) = .ok (i, rest)

/-- A decoded word is the word of the instruction it decodes to, and that instruction is well formed: every bit of a
word is a literal of its pattern or part of an operand field (93_implementation_defined.md U24). -/
def Obligations.EncodeOfDecodeIsTheWord : Prop :=
  ∀ (w : Word) (i : Instr), decode w = .ok i → encode i = w ∧ i.wf = true

/-- The decode algorithm of R101 selects, on all 65536 words, the row that the opcode map of R100 selects, and none
where it selects none. -/
def Obligations.DecoderFollowsTheOpcodeMap : Prop :=
  ∀ w : Word, (selectRow w).map OpcodeRow.name =
    match decode w with
    | .ok i => some i.patternName
    | .error _ => none

/-- R92: the six fields are the stated slices of the word. -/
def Obligations.FieldsAreSlicesOfTheWord : Prop :=
  ∀ w : Word,
    (fieldType w).zeroExtend 16 = w >>> 12 ∧ (fieldNNN w).zeroExtend 16 = w &&& 0x0FFF#16 ∧
    (fieldN w).zeroExtend 16 = w &&& 0x000F#16 ∧ (fieldX w).zeroExtend 16 = (w >>> 8) &&& 0xF#16 ∧
    (fieldY w).zeroExtend 16 = (w >>> 4) &&& 0xF#16 ∧ (fieldKK w).zeroExtend 16 = w &&& 0xFF#16 ∧
    (fieldKK w).toNat = (fieldY w).toNat * 16 + (fieldN w).toNat ∧
    (fieldNNN w).toNat = (fieldX w).toNat * 256 + (fieldKK w).toNat

/-- The illegal words are exactly those of R104, and the legacy words exactly those of R105. -/
def Obligations.IllegalWordsAreTheListedOnes : Prop :=
  ∀ w : Word,
    (decode w = .error (.invalidOpcode w) ↔
      (fieldType w = 0x5#4 ∧ fieldN w ≠ 0x0#4) ∨
      (fieldType w = 0x8#4 ∧ fieldN w ∈ [0x8#4, 0x9#4, 0xA#4, 0xB#4, 0xC#4, 0xD#4, 0xF#4]) ∨
      (fieldType w = 0x9#4 ∧ fieldN w ≠ 0x0#4) ∨
      (fieldType w = 0xE#4 ∧ fieldKK w ∉ [0x9E#8, 0xA1#8]) ∨
      (fieldType w = 0xF#4 ∧
        fieldKK w ∉ [0x07#8, 0x0A#8, 0x15#8, 0x18#8, 0x1E#8, 0x29#8, 0x33#8, 0x55#8, 0x65#8])) ∧
    (decode w = .ok (.sys (fieldNNN w)) ↔ fieldType w = 0x0#4 ∧ w ≠ 0x00E0#16 ∧ w ≠ 0x00EE#16)

/-- Words written out from the encodings of R100 decode to the instructions they stand for, one of each family and the
two overlaps with `0nnn`. -/
def Obligations.SpecWordsDecodeAsListed : Prop :=
  decode 0x00E0 = .ok .cls ∧ decode 0x00EE = .ok .ret ∧ decode 0x00E1 = .ok (.sys 0x0E1) ∧
  decode 0x2300 = .ok (.call 0x300) ∧ decode 0x332A = .ok (.seImm 3 0x2A) ∧ decode 0x8124 = .ok (.addReg 1 2) ∧
  decode 0xA2F0 = .ok (.ldI 0x2F0) ∧ decode 0xF533 = .ok (.ldB 5) ∧ decode 0xD7A5 = .ok (.drw 7 0xA 5) ∧
  decode 0xE29E = .ok (.skp 2) ∧ decode 0xF315 = .ok (.ldDTVx 3) ∧ decode 0xF20B = .error (.invalidOpcode 0xF20B)

/-! ## The step -/

/-- When the bytes at `PC` decode to an instruction and no key is awaited, the step is that instruction's meaning after
the fetch advance: `PC` two on and, until its rule raises a fault, the answer `Ok` (log 2). The host's command `Step(rnd)`
(R50, R51) is, in every state, the step that has `rnd` at hand, and the byte is gone after it (log 3); so it is that
instruction's meaning with `rnd` at hand. -/
def Obligations.StepRunsTheDecodedInstruction : Prop :=
  (∀ (s : State) (i : Instr), s.awaiting = false → s.PC.toNat + 2 ≤ 4096 → decode s.wordAtPC = .ok i →
    step s = exec i s.advance ∧ s.advance = { s with PC := s.PC + 2, result := none }) ∧
  (∀ (s : State) (rnd : Byte), ∃ t, step { s with rndIn := some rnd } = .next t ∧
    command (.step rnd) s = .next { t with rndIn := none }) ∧
  ∀ (s : State) (rnd : Byte) (i : Instr), s.awaiting = false → s.PC.toNat + 2 ≤ 4096 → decode s.wordAtPC = .ok i →
    ∃ t, exec i { s with PC := s.PC + 2, result := none, rndIn := some rnd } = .next t ∧
      command (.step rnd) s = .next { t with rndIn := none }

/-- The spec's own choice D6 (60_exceptions.md, section 2): a fetch past the end of memory faults with `addr = PC` and
changes nothing, and the next step does the same again. The record stands in `result` (log 2). -/
def Obligations.FetchFaultChangesNothing : Prop :=
  ∀ s : State, s.awaiting = false → 4096 < s.PC.toNat + 2 →
    ∃ t, step s = .next t ∧ t = { s with result := some (.outOfBounds s.PC 0x0000#16 s.PC) } ∧ step t = .next t

/-- The spec's own choice D6: once `PC` cannot be fetched from, no command but `Reset` moves it again. -/
def Obligations.UnfetchablePCStaysUntilReset : Prop :=
  ∀ (cs : List Command) (s : State), s.awaiting = false → 4096 < s.PC.toNat + 2 → Command.reset ∉ cs →
    ∃ t, schedule cs s = .next t ∧ t.PC = s.PC ∧ t.awaiting = false

/-- The spec's own choice D6: an illegal word faults after the fetch advance and changes nothing else. -/
def Obligations.IllegalWordFaultsAfterTheAdvance : Prop :=
  ∀ (s : State) (e : DecodeError), s.awaiting = false → s.PC.toNat + 2 ≤ 4096 → decode s.wordAtPC = .error e →
    step s = .next { s with PC := s.PC + 2, result := some (.invalidOpcode s.PC s.wordAtPC) }

/-- The core accepts every command in every state: no step and no command stops it (the spec's own choice D6). -/
def Obligations.EveryCommandIsAnswered : Prop :=
  (∀ s : State, ∃ t, step s = .next t) ∧ ∀ (c : Command) (s : State), ∃ t, command c s = .next t

/-- Faults are precise (the spec's own choice D6): a step that answers a fault was not a poll; either its fetch failed
and nothing changed, or the record names the instruction's address and word and the state differs from the one before in
`PC`, two on, and nowhere else. -/
def Obligations.FaultsArePrecise : Prop :=
  ∀ (s t : State) (f : Fault), step s = .next t → t.result = some f →
    s.awaiting = false ∧
    ((4096 < s.PC.toNat + 2 ∧ f = .outOfBounds s.PC 0x0000#16 s.PC ∧ t = { s with result := some f }) ∨
      (s.PC.toNat + 2 ≤ 4096 ∧ f.pc = s.PC ∧ f.word = s.wordAtPC ∧
        t = { s with PC := s.PC + 2, result := some f }))

/-- Which instruction can raise what, completely, under which condition and with which record (the record is the spec's
own choice D7, the stack's cap its choice D5). -/
def Obligations.WhichInstructionRaisesWhat : Prop :=
  ∀ (i : Instr) (s t : State) (f : Fault), s.result = none → exec i s = .next t → t.result = some f →
    (i = .ret ∧ s.SP = 0 ∧ f = .stackUnderflow (s.PC - 2) (encode i)) ∨
    (∃ nnn, i = .sys nnn ∧ f = .unsupportedLegacyOp (s.PC - 2) (encode i)) ∨
    (∃ nnn, i = .call nnn ∧ s.cfg.stackDepth ≤ s.SP ∧ f = .stackOverflow (s.PC - 2) (encode i)) ∨
    (∃ x y n, i = .drw x y n ∧ 4096 < s.I.toNat + n.toNat ∧ f = .outOfBounds (s.PC - 2) (encode i) s.I) ∨
    (∃ x, i = .ldB x ∧ 4096 < s.I.toNat + 3 ∧ f = .outOfBounds (s.PC - 2) (encode i) s.I) ∨
    (∃ x, (i = .storeRegs x ∨ i = .loadRegs x) ∧ 4096 < s.I.toNat + (x.toNat + 1) ∧
      f = .outOfBounds (s.PC - 2) (encode i) s.I)

/-- How each instruction leaves `PC`, row by row of the table of 10_state.md, section 4, for a step that fetches at
`s.PC`: the low nibble of a key index is the spec's own choice D10, the `PC` a fault leaves its choice D6. -/
def Obligations.PCAfterEachInstruction : Prop :=
  (∀ (s : State) (i : Instr), s.awaiting = false → s.PC.toNat + 2 ≤ 4096 → decode s.wordAtPC = .ok i →
    ∃ t, step s = .next t ∧ (t.result = none → t.PC = pcAfter i s) ∧ (t.result ≠ none → t.PC = s.PC + 2)) ∧
  (∀ s : State, s.awaiting = false → 4096 < s.PC.toNat + 2 → ∃ t, step s = .next t ∧ t.PC = s.PC) ∧
  ∀ (nnn : Addr) (s : State), (pcAfter (.jpV0 nnn) s).toNat = nnn.toNat + (s.reg 0x0#4).toNat

/-- A step taken while awaiting a key fetches nothing and polls (the spec's own choice D13): with no key down nothing
changes; with some key down the least of them goes to `V[wait_x]` and the wait ends. -/
def Obligations.AwaitingStepOnlyPolls : Prop :=
  (∀ s : State, s.awaiting = true → (∀ k, s.keyDown k = false) → step s = .next { s with result := none }) ∧
  ∀ (s : State) (k : Nibble), s.awaiting = true → s.keyDown k = true →
    (∀ j : Nibble, j.toNat < k.toNat → s.keyDown j = false) →
    ∃ t, step s = .next t ∧ t.reg s.waitX = k.zeroExtend 8 ∧ (∀ r, r ≠ s.waitX → t.reg r = s.reg r) ∧
      t = { s with V := t.V, awaiting := false, result := none }

/-! ## Invariants -/

/-- The state after reset meets the invariant, for every choice of parameters within their constraints and for the
model's own default (log 1). -/
def Obligations.ResetMeetsTheInvariant : Prop :=
  (∀ c : Config, c.wf → (State.resetWith c).Inv) ∧ State.reset.Inv

/-- Every step keeps the invariant: the memory canonical, the stack an array of STACK_DEPTH entries with at most that
many valid, `PC` at most 0x10FE and every stack entry at most 4096, so that `PC` arithmetic never wraps. -/
def Obligations.EveryStepKeepsTheInvariant : Prop :=
  ∀ s t : State, s.Inv → step s = .next t → t.Inv

/-- Every schedule of the six commands keeps the invariant. -/
def Obligations.EveryScheduleKeepsTheInvariant : Prop :=
  ∀ (cs : List Command) (s : State), s.Inv → ∃ t, schedule cs s = .next t ∧ t.Inv

/-- The canonical form is canonical: memories that read alike at every address are equal data (log 9). -/
def Obligations.MemoriesThatReadAlikeAreEqual : Prop :=
  ∀ (c : Config) (m m' : Memory), Memory.wf c m → Memory.wf c m' →
    (∀ a, a < 4096 → Memory.readByte c m a = Memory.readByte c m' a) → m = m'

/-- The block write and the chunk read: inside memory, the bytes written are those read back and no other byte changes;
past the end both fail as a whole (all-or-nothing is the spec's own choice D21). -/
def Obligations.BlockWriteThenRead : Prop :=
  ∀ (s : State) (a : Nat) (bs : List Byte),
    (a + bs.length ≤ 4096 → ∃ t, s.memWrite a bs = some t ∧ OnlyBytes a bs.length s t ∧ (s.MemOk → t.MemOk) ∧
      (∀ k b, bs[k]? = some b → t.byteAt (a + k) = b) ∧ t.memRead a bs.length = some bs) ∧
    (4096 < a + bs.length → s.memWrite a bs = none ∧ s.memRead a bs.length = none)

/-! ## Commands -/

/-- What reset leaves, piece by piece, the loaded program and the keypad cleared (the spec's own choice D19). The
parameters are the model's `cfg` (log 1). -/
def Obligations.ResetGivesTheStartState : Prop :=
  (∀ s : State, ∃ t, command .reset s = .next t ∧ IsResetState s.cfg t) ∧
  IsResetState Config.default State.reset

/-- `n` ticks count both timers down by `n`, floored at 0, each on its own, and change nothing else; that ticks come at
the host's choosing is the spec's own choice D17. -/
def Obligations.TicksCountBothTimersDown : Prop :=
  ∀ (n : Nat) (s : State), ∃ t, schedule (List.replicate n .tick) s = .next t ∧
    t.DT.toNat = s.DT.toNat - n ∧ t.ST.toNat = s.ST.toNat - n ∧ t = { s with DT := t.DT, ST := t.ST }

/-- `Load` copies at most 3584 bytes verbatim from 0x200 and changes memory only; a longer list faults and writes
nothing (the spec's own choice D20; the answer stands in `result`, log 2). -/
def Obligations.LoadCopiesVerbatim : Prop :=
  ∀ (s : State) (bytes : List Byte),
    (bytes.length ≤ 3584 → ∃ t, command (.load bytes) s = .next t ∧ t = { s with mem := t.mem, result := none } ∧
      (∀ k b, bytes[k]? = some b → t.byteAt (0x200 + k) = b) ∧
      ∀ a, a < 0x200 ∨ 0x200 + bytes.length ≤ a → t.byteAt a = s.byteAt a) ∧
    (3584 < bytes.length →
      command (.load bytes) s = .next { s with result := some (.outOfBounds s.PC 0x0000#16 0x0200#16) })

/-- `SetKey` writes its one key flag and `AckRedraw` clears `redraw`; neither changes anything else (the commands'
form is the spec's own choice D24). -/
def Obligations.SetKeyAndAckRedraw : Prop :=
  (∀ (s : State) (k : Nibble) (b : Bool), ∃ t, command (.setKey k b) s = .next t ∧ t.keyDown k = b ∧
    (∀ j, j ≠ k → t.keyDown j = s.keyDown j) ∧ t = { s with key := t.key }) ∧
  ∀ s : State, command .ackRedraw s = .next { s with redraw := false }

/-! ## Rules about the whole machine -/

/-- The random byte is used by `Cxkk` alone: whatever the host gives, and however many bytes were drawn before, every
other instruction does the same (the byte as an input of the step is the spec's own choice D18, log 3). -/
def Obligations.OnlyRndUsesTheRandomByte : Prop :=
  ∀ (i : Instr) (s : State) (r : Option Byte) (d : Nat), (∀ x kk, i ≠ .rnd x kk) →
    exec i { s with rndIn := r, draws := d } = mapNext (fun t => { t with rndIn := r, draws := d }) (exec i s)

/-- What each piece of state besides `V` and `PC` is written by: nothing else changes it. No instruction writes a key
flag or a parameter, and `redraw` is only ever raised. -/
def Obligations.StateChangesOnlyByItsWriters : Prop :=
  ∀ (i : Instr) (s t : State), exec i s = .next t →
    t.cfg = s.cfg ∧ t.key = s.key ∧
    (t.I ≠ s.I → (∃ nnn, i = .ldI nnn) ∨ (∃ x, i = .addI x) ∨ ∃ x, i = .ldF x) ∧
    (t.stack ≠ s.stack → ∃ nnn, i = .call nnn) ∧
    (t.SP ≠ s.SP → (∃ nnn, i = .call nnn) ∨ i = .ret) ∧
    (t.DT ≠ s.DT → ∃ x, i = .ldDTVx x) ∧
    (t.ST ≠ s.ST → ∃ x, i = .ldSTVx x) ∧
    (t.mem ≠ s.mem → ∃ x, i = .ldB x ∨ i = .storeRegs x) ∧
    (t.fb ≠ s.fb → i = .cls ∨ ∃ x y n, i = .drw x y n) ∧
    (t.redraw ≠ s.redraw → t.redraw = true ∧ (i = .cls ∨ ∃ x y n, i = .drw x y n)) ∧
    (t.awaiting ≠ s.awaiting ∨ t.waitX ≠ s.waitX → ∃ x, i = .ldVxK x)

/-- A general register changes only by an instruction that the access table lets write it; in particular VF changes only
by the six flag writers, as a named destination, or as the last register of `FF65`. -/
def Obligations.RegistersChangeOnlyByTheirWriters : Prop :=
  ∀ (i : Instr) (s t : State) (r : Nibble), exec i s = .next t → t.reg r ≠ s.reg r → mayWrite i r

/-- SHIFT_SOURCE reaches `8xy6` and `8xyE` alone (not `8xy7`, 90_conflicts.md C6), and SPRITE_EDGE reaches `Dxyn`
alone. -/
def Obligations.ParametersReachOnlyTheirInstructions : Prop :=
  (∀ (i : Instr) (s : State) (v : ShiftSource), (∀ x y, i ≠ .shrReg x y ∧ i ≠ .shlReg x y) →
    exec i { s with cfg := { s.cfg with shiftSource := v } } =
      mapNext (fun t => { t with cfg := { t.cfg with shiftSource := v } }) (exec i s)) ∧
  ∀ (i : Instr) (s : State) (e : SpriteEdge), (∀ x y n, i ≠ .drw x y n) →
    exec i { s with cfg := { s.cfg with spriteEdge := e } } =
      mapNext (fun t => { t with cfg := { t.cfg with spriteEdge := e } }) (exec i s)

/-- The framebuffer is reached by `00E0` and `Dxyn` alone, the keypad by `Ex9E`, `ExA1` and `Fx0A`, the delay timer by
`Fx07` and `Fx15`, the sound timer by `Fx18`: every other instruction does the same whatever they hold. -/
def Obligations.DevicesReachedOnlyByTheirInstructions : Prop :=
  (∀ (i : Instr) (s : State) (g : Framebuffer), i ≠ .cls → (∀ x y n, i ≠ .drw x y n) →
    exec i { s with fb := g } = mapNext (fun t => { t with fb := g }) (exec i s)) ∧
  (∀ (i : Instr) (s : State) (k : Vector Bool 16), (∀ x, i ≠ .skp x ∧ i ≠ .sknp x ∧ i ≠ .ldVxK x) →
    exec i { s with key := k } = mapNext (fun t => { t with key := k }) (exec i s)) ∧
  (∀ (i : Instr) (s : State) (d : Byte), (∀ x, i ≠ .ldVxDT x ∧ i ≠ .ldDTVx x) →
    exec i { s with DT := d } = mapNext (fun t => { t with DT := d }) (exec i s)) ∧
  ∀ (i : Instr) (s : State) (d : Byte), (∀ x, i ≠ .ldSTVx x) →
    exec i { s with ST := d } = mapNext (fun t => { t with ST := d }) (exec i s)

/-! ## Register load, arithmetic, logic, shift, random -/

/-- R142: `6xkk` completes in every state, Vx is kk, nothing else changes. -/
def Obligations.LoadImmediateWritesVx : Prop :=
  ∀ (x : Nibble) (kk : Byte) (s : State), ∃ t, exec (.ldImm x kk) s = .next t ∧ t.reg x = kk ∧ OnlyRegs (· = x) s t

/-- R143: `7xkk` completes in every state, Vx is the sum mod 256, nothing else changes: VF only where x is 15. -/
def Obligations.AddImmediateWraps : Prop :=
  ∀ (x : Nibble) (kk : Byte) (s : State), ∃ t, exec (.addImm x kk) s = .next t ∧
    (t.reg x).toNat = ((s.reg x).toNat + kk.toNat) % 256 ∧ OnlyRegs (· = x) s t

/-- R144: `8xy0` completes in every state, Vx is the old Vy, nothing else changes. -/
def Obligations.CopyWritesVx : Prop :=
  ∀ (x y : Nibble) (s : State), ∃ t, exec (.ldReg x y) s = .next t ∧ t.reg x = s.reg y ∧ OnlyRegs (· = x) s t

/-- `8xy1`, `8xy2`, `8xy3` complete in every state, Vx is the bitwise or, and, exclusive or, nothing else changes; that
VF is left alone is the spec's own choice D16. -/
def Obligations.LogicWritesVx : Prop :=
  ∀ (x y : Nibble) (s : State),
    (∃ t, exec (.orReg x y) s = .next t ∧ t.reg x = s.reg x ||| s.reg y ∧ OnlyRegs (· = x) s t) ∧
    (∃ t, exec (.andReg x y) s = .next t ∧ t.reg x = s.reg x &&& s.reg y ∧ OnlyRegs (· = x) s t) ∧
    ∃ t, exec (.xorReg x y) s = .next t ∧ t.reg x = s.reg x ^^^ s.reg y ∧ OnlyRegs (· = x) s t

/-- `8xy4` completes in every state: VF is 1 exactly when the sum of the old operands exceeds 255, and with x other than
15 Vx is the sum mod 256; that the carry stays at x = 15 is the spec's own choice D14. -/
def Obligations.AddRegistersSetsCarry : Prop :=
  ∀ (x y : Nibble) (s : State), ∃ t, exec (.addReg x y) s = .next t ∧
    t.reg 0xF#4 = (if 255 < (s.reg x).toNat + (s.reg y).toNat then 1 else 0) ∧
    (x ≠ 0xF#4 → (t.reg x).toNat = ((s.reg x).toNat + (s.reg y).toNat) % 256) ∧
    OnlyRegs (fun r => r = x ∨ r = 0xF#4) s t

/-- `8xy5` and `8xy7` complete in every state: Vx is the difference of the old operands mod 256, and with x other than 15
VF is 1 exactly when the minuend is strictly greater; that the difference stays at x = 15 is the spec's own choice
D14. -/
def Obligations.SubtractSetsStrictFlag : Prop :=
  ∀ (x y : Nibble) (s : State),
    (∃ t, exec (.subReg x y) s = .next t ∧ (t.reg x).toNat = ((s.reg x).toNat + 256 - (s.reg y).toNat) % 256 ∧
      (x ≠ 0xF#4 → t.reg 0xF#4 = if (s.reg y).toNat < (s.reg x).toNat then 1 else 0) ∧
      OnlyRegs (fun r => r = x ∨ r = 0xF#4) s t) ∧
    ∃ t, exec (.subnReg x y) s = .next t ∧ (t.reg x).toNat = ((s.reg y).toNat + 256 - (s.reg x).toNat) % 256 ∧
      (x ≠ 0xF#4 → t.reg 0xF#4 = if (s.reg x).toNat < (s.reg y).toNat then 1 else 0) ∧
      OnlyRegs (fun r => r = x ∨ r = 0xF#4) s t

/-- `8xy6` and `8xyE` complete in every state and for either SHIFT_SOURCE: Vx is the operand moved one bit, the vacated
bit 0, and with x other than 15 VF is the bit shifted out; that the shifted value stays at x = 15 is the spec's own
choice D14. -/
def Obligations.ShiftsMoveOneBit : Prop :=
  ∀ (x y : Nibble) (s : State) (v : Byte), v = (if s.cfg.shiftSource = .vx then s.reg x else s.reg y) →
    (∃ t, exec (.shrReg x y) s = .next t ∧ (t.reg x).toNat = v.toNat / 2 ∧
      (x ≠ 0xF#4 → (t.reg 0xF#4).toNat = v.toNat % 2) ∧ OnlyRegs (fun r => r = x ∨ r = 0xF#4) s t) ∧
    ∃ t, exec (.shlReg x y) s = .next t ∧ (t.reg x).toNat = v.toNat * 2 % 256 ∧
      (x ≠ 0xF#4 → (t.reg 0xF#4).toNat = v.toNat / 128) ∧ OnlyRegs (fun r => r = x ∨ r = 0xF#4) s t

/-- `Cxkk` completes in every state: Vx is the masked byte, the host's where it gave one, else the next free one (log 3;
the byte as an input of the step is the spec's own choice D18). Nothing else of the machine changes. As the host's command
`Step(rnd)`: Vx is `rnd` masked, `PC` is two on, and no free byte is drawn. -/
def Obligations.RandomByteIsMasked : Prop :=
  (∀ (x : Nibble) (kk : Byte) (s : State), ∃ t, exec (.rnd x kk) s = .next t ∧
    t.reg x = s.rndIn.getD (Config.randomByte s.draws) &&& kk ∧ (∀ r, r ≠ x → t.reg r = s.reg r) ∧
    (∀ a, t.byteAt a = s.byteAt a) ∧ t.rndIn = none ∧
    t.draws = (if s.rndIn = none then s.draws + 1 else s.draws) ∧
    t = { s with V := t.V, rndIn := t.rndIn, draws := t.draws }) ∧
  ∀ (x : Nibble) (kk rnd : Byte) (s : State), s.awaiting = false → s.PC.toNat + 2 ≤ 4096 →
    decode s.wordAtPC = .ok (.rnd x kk) →
    ∃ t, command (.step rnd) s = .next t ∧ t.reg x = rnd &&& kk ∧ (∀ r, r ≠ x → t.reg r = s.reg r) ∧
      (∀ a, t.byteAt a = s.byteAt a) ∧
      t = { s with V := t.V, PC := s.PC + 2, result := none, rndIn := none }

/-! ## Control transfer -/

/-- R125 to R128: the four register skips complete in every state and add 2 to `PC` exactly under their condition;
nothing else changes. -/
def Obligations.SkipsAddTwoOnTheirCondition : Prop :=
  ∀ (x y : Nibble) (kk : Byte) (s : State),
    exec (.seImm x kk) s = .next { s with PC := if s.reg x = kk then s.PC + 2 else s.PC } ∧
    exec (.sneImm x kk) s = .next { s with PC := if s.reg x ≠ kk then s.PC + 2 else s.PC } ∧
    exec (.seReg x y) s = .next { s with PC := if s.reg x = s.reg y then s.PC + 2 else s.PC } ∧
    exec (.sneReg x y) s = .next { s with PC := if s.reg x ≠ s.reg y then s.PC + 2 else s.PC }

/-- R123, R131: the jumps complete in every state, `PC` is nnn or nnn + V0, whatever those are, and nothing else
changes; the sum never wraps, and a `PC` of 4095 or more is one that cannot be fetched from. -/
def Obligations.JumpsGoToTheirTarget : Prop :=
  ∀ (nnn : Addr) (s : State),
    exec (.jp nnn) s = .next { s with PC := nnn.zeroExtend 16 } ∧
    exec (.jpV0 nnn) s = .next { s with PC := BitVec.ofNat 16 (nnn.toNat + (s.reg 0x0#4).toNat) } ∧
    nnn.toNat + (s.reg 0x0#4).toNat ≤ 0x10FE ∧ (s.fetch = none ↔ 4095 ≤ s.PC.toNat)

/-- `2nnn` with room on the stack pushes `PC`, the address after the call, and jumps; with a full stack it takes
`StackOverflow` and changes nothing else. That the cap is enforced is the spec's own choice D5. -/
def Obligations.CallPushesAndJumps : Prop :=
  ∀ (nnn : Addr) (s : State), s.StackOk →
    (s.SP < s.cfg.stackDepth → ∃ t, exec (.call nnn) s = .next t ∧ t.PC = nnn.zeroExtend 16 ∧ t.SP = s.SP + 1 ∧
      t.stack[s.SP]? = some s.PC ∧ (∀ j, j ≠ s.SP → t.stack[j]? = s.stack[j]?) ∧
      t = { s with PC := t.PC, SP := t.SP, stack := t.stack }) ∧
    (s.SP = s.cfg.stackDepth →
      exec (.call nnn) s = .next { s with result := some (.stackOverflow (s.PC - 2) (encode (.call nnn))) })

/-- `00EE` with an entry on the stack pops it into `PC`; with an empty stack it takes `StackUnderflow`. Nothing else
changes. -/
def Obligations.ReturnPops : Prop :=
  (∀ (s : State) (w : Word), 0 < s.SP → s.stack[s.SP - 1]? = some w →
    exec .ret s = .next { s with PC := w, SP := s.SP - 1 }) ∧
  ∀ s : State, s.SP = 0 → exec .ret s = .next { s with result := some (.stackUnderflow (s.PC - 2) 0x00EE#16) }

/-- Calls nested to any depth the stack has room for, then as many returns: `PC` and `SP` are back where they were, `PC`
at the address after the outermost call, and every entry that was on the stack is still there. -/
def Obligations.NestedCallsReturn : Prop :=
  ∀ (targets : List Addr) (s : State), s.StackOk → s.SP + targets.length ≤ s.cfg.stackDepth →
    ∃ t, execAll (targets.map .call ++ List.replicate targets.length .ret) s = .next t ∧
      t.PC = s.PC ∧ t.SP = s.SP ∧ (∀ j, j < s.SP → t.stack[j]? = s.stack[j]?) ∧ t = { s with stack := t.stack }

/-- `0nnn` always takes `UnsupportedLegacyOp` and changes nothing else: as a meaning, and as a step, which leaves `PC` at
the following instruction (what a fault leaves and what its record holds are the spec's own choices D6, D7). -/
def Obligations.LegacyCallFaults : Prop :=
  (∀ (nnn : Addr) (s : State),
    exec (.sys nnn) s = .next { s with result := some (.unsupportedLegacyOp (s.PC - 2) (encode (.sys nnn))) }) ∧
  ∀ s : State, s.awaiting = false → s.PC.toNat + 2 ≤ 4096 → fieldType s.wordAtPC = 0x0#4 →
    s.wordAtPC ≠ 0x00E0#16 → s.wordAtPC ≠ 0x00EE#16 →
    step s = .next { s with PC := s.PC + 2, result := some (.unsupportedLegacyOp s.PC s.wordAtPC) }

/-! ## Index register and memory -/

/-- R170: `Annn` completes in every state, `I` is nnn, nothing else changes. -/
def Obligations.LoadIndexWritesI : Prop :=
  ∀ (nnn : Addr) (s : State), ∃ t, exec (.ldI nnn) s = .next t ∧ t.I.toNat = nnn.toNat ∧ t = { s with I := t.I }

/-- `Fx1E` and `Fx29` complete in every state: `I` is the sum mod 65536, unmasked and with no flag (the spec's own choice
D8), or the glyph address of the low nibble of Vx (its choice D10); nothing else changes. -/
def Obligations.IndexArithmetic : Prop :=
  ∀ (x : Nibble) (s : State),
    (∃ t, exec (.addI x) s = .next t ∧ t.I.toNat = (s.I.toNat + (s.reg x).toNat) % 65536 ∧ t = { s with I := t.I }) ∧
    ∃ t, exec (.ldF x) s = .next t ∧ (s.cfg.wf → t.I.toNat = s.cfg.fontBase.toNat + 5 * ((s.reg x).toNat % 16)) ∧
      t = { s with I := t.I }

/-- `Fx33` stores the three decimal digits of Vx at `I`, `I + 1`, `I + 2` where they fit, and otherwise takes
`OutOfBounds` and writes nothing (the spec's own choices D6, D21). -/
def Obligations.DecimalDigitsAreStored : Prop :=
  ∀ (x : Nibble) (s : State),
    (s.I.toNat + 3 ≤ 4096 → ∃ t, exec (.ldB x) s = .next t ∧
      (t.byteAt s.I.toNat).toNat = (s.reg x).toNat / 100 ∧
      (t.byteAt (s.I.toNat + 1)).toNat = (s.reg x).toNat / 10 % 10 ∧
      (t.byteAt (s.I.toNat + 2)).toNat = (s.reg x).toNat % 10 ∧ OnlyBytes s.I.toNat 3 s t) ∧
    (4096 < s.I.toNat + 3 →
      exec (.ldB x) s = .next { s with result := some (.outOfBounds (s.PC - 2) (encode (.ldB x)) s.I) })

/-- `Fx55` stores V0 to Vx at ascending addresses from `I` where they fit, `I` unchanged (the spec's own choice D16), and
otherwise takes `OutOfBounds` and writes nothing (its choices D6, D21). -/
def Obligations.BlockStoreWritesMemory : Prop :=
  ∀ (x : Nibble) (s : State),
    (s.I.toNat + (x.toNat + 1) ≤ 4096 → ∃ t, exec (.storeRegs x) s = .next t ∧
      (∀ r : Nibble, r.toNat ≤ x.toNat → t.byteAt (s.I.toNat + r.toNat) = s.reg r) ∧
      OnlyBytes s.I.toNat (x.toNat + 1) s t) ∧
    (4096 < s.I.toNat + (x.toNat + 1) →
      exec (.storeRegs x) s = .next { s with result := some (.outOfBounds (s.PC - 2) (encode (.storeRegs x)) s.I) })

/-- `Fx65` loads V0 to Vx from ascending addresses from `I` where they lie in memory, `I` unchanged (the spec's own
choice D16), and otherwise takes `OutOfBounds` and changes no register (its choices D6, D21). -/
def Obligations.BlockLoadWritesRegisters : Prop :=
  ∀ (x : Nibble) (s : State),
    (s.I.toNat + (x.toNat + 1) ≤ 4096 → ∃ t, exec (.loadRegs x) s = .next t ∧
      (∀ r : Nibble, r.toNat ≤ x.toNat → t.reg r = s.byteAt (s.I.toNat + r.toNat)) ∧
      OnlyRegs (fun r => r.toNat ≤ x.toNat) s t) ∧
    (4096 < s.I.toNat + (x.toNat + 1) →
      exec (.loadRegs x) s = .next { s with result := some (.outOfBounds (s.PC - 2) (encode (.loadRegs x)) s.I) })

/-- `Fx55` then `Fx65` with the same x and `I` brings V0 to Vx back, whatever else was done between the two that left
memory and `I` alone. -/
def Obligations.StoreThenLoadRoundTrips : Prop :=
  ∀ (x : Nibble) (s u : State), s.I.toNat + (x.toNat + 1) ≤ 4096 →
    (∃ t, exec (.storeRegs x) s = .next t ∧ u.I = t.I ∧ u.mem = t.mem ∧ u.cfg = t.cfg) →
    ∃ v, exec (.loadRegs x) u = .next v ∧ ∀ r : Nibble, r.toNat ≤ x.toNat → v.reg r = s.reg r

/-- A store is seen by the very next fetch: where `Fx55` writes the two bytes of the instruction that follows it, the
state it leaves fetches the registers' bytes, V0 the high one (big-endian fetch is the spec's own choice D2). -/
def Obligations.StoreIsSeenByTheNextFetch : Prop :=
  ∀ (x : Nibble) (s : State), s.awaiting = false → s.PC.toNat + 2 ≤ 4096 → decode s.wordAtPC = .ok (.storeRegs x) →
    1 ≤ x.toNat → s.I = s.PC + 2 → s.I.toNat + (x.toNat + 1) ≤ 4096 →
    ∃ t, step s = .next t ∧ t.result = none ∧ t.fetch = some (wordOfBytes (s.reg 0x0#4) (s.reg 0x1#4))

/-! ## Display -/

/-- R191: `00E0` completes in every state, every pixel is 0, `redraw` is 1, nothing else changes. -/
def Obligations.ClearZeroesEveryPixel : Prop :=
  ∀ s : State, ∃ t, exec .cls s = .next t ∧ (∀ x y, t.pixelOut x y = false) ∧ t.redraw = true ∧
    t = { s with fb := t.fb, redraw := t.redraw }

/-- `Dxyn` whose rows lie in memory flips exactly the pixels its sprite covers, sets VF to whether one of them was 1, sets
`redraw` and changes nothing else; otherwise it takes `OutOfBounds` and changes nothing. SPRITE_EDGE is either value; bit
order, collision and `redraw` are the spec's own choice D12, the fault its choices D6, D21. -/
def Obligations.DrawFlipsTheCoveredPixels : Prop :=
  ∀ (x y n : Nibble) (s : State),
    (s.I.toNat + n.toNat ≤ 4096 → ∃ t, exec (.drw x y n) s = .next t ∧
      (∀ px py, spriteCovers s x y n px py → t.pixelOut px py = !s.pixelOut px py) ∧
      (∀ px py, ¬ spriteCovers s x y n px py → t.pixelOut px py = s.pixelOut px py) ∧
      ((∃ px py, spriteCovers s x y n px py ∧ s.pixelOut px py = true) → t.reg 0xF#4 = 1) ∧
      ((∀ px py, spriteCovers s x y n px py → s.pixelOut px py = false) → t.reg 0xF#4 = 0) ∧
      t.redraw = true ∧ (∀ r, r ≠ 0xF#4 → t.reg r = s.reg r) ∧ (∀ a, t.byteAt a = s.byteAt a) ∧
      t = { s with V := t.V, fb := t.fb, redraw := t.redraw }) ∧
    (4096 < s.I.toNat + n.toNat →
      exec (.drw x y n) s = .next { s with result := some (.outOfBounds (s.PC - 2) (encode (.drw x y n)) s.I) })

/-- An identical second draw restores the framebuffer; from a clear one the first draw reports no collision and the
second reports one exactly when the sprite covers a pixel. VF must not be an origin register. -/
def Obligations.DrawTwiceRestores : Prop :=
  ∀ (x y n : Nibble) (s : State), x ≠ 0xF#4 → y ≠ 0xF#4 → s.I.toNat + n.toNat ≤ 4096 →
    ∃ t u, exec (.drw x y n) s = .next t ∧ exec (.drw x y n) t = .next u ∧
      (∀ px py, u.pixelOut px py = s.pixelOut px py) ∧
      ((∀ px py, s.pixelOut px py = false) → t.reg 0xF#4 = 0 ∧
        (u.reg 0xF#4 = 1 ↔ ∃ px py, spriteCovers s x y n px py))

/-! ## Keypad and timers -/

/-- `Ex9E` and `ExA1` complete in every state and add 2 to `PC` exactly when the key that the low nibble of Vx names (the
spec's own choice D10) is, or is not, pressed; nothing else changes. -/
def Obligations.KeySkipsTestTheLowNibble : Prop :=
  ∀ (x : Nibble) (s : State),
    exec (.skp x) s =
      .next { s with PC := if s.keyDown (BitVec.ofNat 4 (s.reg x).toNat) then s.PC + 2 else s.PC } ∧
    exec (.sknp x) s =
      .next { s with PC := if s.keyDown (BitVec.ofNat 4 (s.reg x).toNat) then s.PC else s.PC + 2 }

/-- R204, R205, R206: `Fx07` copies the delay timer to Vx, `Fx15` and `Fx18` set the timers from Vx, each in every state
and changing nothing else; every state beeps exactly when its sound timer is nonzero. -/
def Obligations.TimersAreReadAndWritten : Prop :=
  ∀ (x : Nibble) (s : State),
    (∃ t, exec (.ldVxDT x) s = .next t ∧ t.reg x = s.DT ∧ OnlyRegs (· = x) s t) ∧
    exec (.ldDTVx x) s = .next { s with DT := s.reg x } ∧
    exec (.ldSTVx x) s = .next { s with ST := s.reg x } ∧ (s.beeping = true ↔ s.ST ≠ 0)

/-- `Fx0A` completes in every state, `PC` staying past it (the spec's own choice D13): with no key down the core awaits
one for Vx; with some key down Vx receives the least at once. Nothing else changes, no key flag in particular. -/
def Obligations.WaitForKeyPollsAtOnce : Prop :=
  (∀ (x : Nibble) (s : State), (∀ k, s.keyDown k = false) →
    exec (.ldVxK x) s = .next { s with awaiting := true, waitX := x }) ∧
  ∀ (x : Nibble) (s : State) (k : Nibble), s.keyDown k = true →
    (∀ j : Nibble, j.toNat < k.toNat → s.keyDown j = false) →
    ∃ t, exec (.ldVxK x) s = .next t ∧ t.reg x = k.zeroExtend 8 ∧ (∀ r, r ≠ x → t.reg r = s.reg r) ∧
      t = { s with V := t.V, awaiting := false }
end

