-- ==== Sys2Proof/Laws/Decode.lean ====
section
/-! SUPPORT. The fields of a word as numbers, and the fields of a word the encoder put together. -/

namespace Sys2Proof

/-! ## Fields as numbers (R92) -/

theorem toNat_fieldType (w : Word) : (fieldType w).toNat = w.toNat / 4096 := by
  have := w.isLt
  simp only [fieldType, BitVec.extractLsb'_toNat, Nat.shiftRight_eq_div_pow]; omega

theorem toNat_fieldX (w : Word) : (fieldX w).toNat = w.toNat / 256 % 16 := by
  simp only [fieldX, BitVec.extractLsb'_toNat, Nat.shiftRight_eq_div_pow]

theorem toNat_fieldY (w : Word) : (fieldY w).toNat = w.toNat / 16 % 16 := by
  simp only [fieldY, BitVec.extractLsb'_toNat, Nat.shiftRight_eq_div_pow]

theorem toNat_fieldN (w : Word) : (fieldN w).toNat = w.toNat % 16 := by
  simp [fieldN, BitVec.extractLsb'_toNat]

theorem toNat_fieldKK (w : Word) : (fieldKK w).toNat = w.toNat % 256 := by
  simp [fieldKK, BitVec.extractLsb'_toNat]

theorem toNat_fieldNNN (w : Word) : (fieldNNN w).toNat = w.toNat % 4096 := by
  simp [fieldNNN, BitVec.extractLsb'_toNat]

/-! ## The three encoding forms as numbers (R94) -/

theorem toNat_encodeNNN (t : Nibble) (a : Addr) : (encodeNNN t a).toNat = t.toNat * 4096 + a.toNat := by
  have := a.isLt
  show (t ++ a).toNat = _
  rw [BitVec.toNat_append, ← Nat.shiftLeft_add_eq_or_of_lt this, Nat.shiftLeft_eq]

theorem toNat_encodeXKK (t x : Nibble) (kk : Byte) :
    (encodeXKK t x kk).toNat = t.toNat * 4096 + x.toNat * 256 + kk.toNat := by
  have := kk.isLt
  have := x.isLt
  show (t ++ x ++ kk).toNat = _
  rw [BitVec.toNat_append, ← Nat.shiftLeft_add_eq_or_of_lt kk.isLt, BitVec.toNat_append,
    ← Nat.shiftLeft_add_eq_or_of_lt x.isLt, Nat.shiftLeft_eq, Nat.shiftLeft_eq]
  omega

theorem toNat_encodeXYN (t x y n : Nibble) :
    (encodeXYN t x y n).toNat = t.toNat * 4096 + x.toNat * 256 + y.toNat * 16 + n.toNat := by
  show (t ++ x ++ y ++ n).toNat = _
  rw [BitVec.toNat_append, ← Nat.shiftLeft_add_eq_or_of_lt n.isLt, BitVec.toNat_append,
    ← Nat.shiftLeft_add_eq_or_of_lt y.isLt, BitVec.toNat_append, ← Nat.shiftLeft_add_eq_or_of_lt x.isLt,
    Nat.shiftLeft_eq, Nat.shiftLeft_eq, Nat.shiftLeft_eq]
  omega

/-! ## The fields of an encoded word -/

section Fields

variable (t x y n : Nibble) (a : Addr) (kk : Byte)

@[simp] theorem fieldType_encodeNNN : fieldType (encodeNNN t a) = t := by
  have := a.isLt
  apply BitVec.eq_of_toNat_eq; rw [toNat_fieldType, toNat_encodeNNN]; omega

@[simp] theorem fieldNNN_encodeNNN : fieldNNN (encodeNNN t a) = a := by
  have := a.isLt
  apply BitVec.eq_of_toNat_eq; rw [toNat_fieldNNN, toNat_encodeNNN]; omega

@[simp] theorem fieldType_encodeXKK : fieldType (encodeXKK t x kk) = t := by
  have := x.isLt; have := kk.isLt
  apply BitVec.eq_of_toNat_eq; rw [toNat_fieldType, toNat_encodeXKK]; omega

@[simp] theorem fieldX_encodeXKK : fieldX (encodeXKK t x kk) = x := by
  have := x.isLt; have := kk.isLt
  apply BitVec.eq_of_toNat_eq; rw [toNat_fieldX, toNat_encodeXKK]; omega

@[simp] theorem fieldKK_encodeXKK : fieldKK (encodeXKK t x kk) = kk := by
  have := kk.isLt
  apply BitVec.eq_of_toNat_eq; rw [toNat_fieldKK, toNat_encodeXKK]; omega

@[simp] theorem fieldType_encodeXYN : fieldType (encodeXYN t x y n) = t := by
  have := x.isLt; have := y.isLt; have := n.isLt
  apply BitVec.eq_of_toNat_eq; rw [toNat_fieldType, toNat_encodeXYN]; omega

@[simp] theorem fieldX_encodeXYN : fieldX (encodeXYN t x y n) = x := by
  have := x.isLt; have := y.isLt; have := n.isLt
  apply BitVec.eq_of_toNat_eq; rw [toNat_fieldX, toNat_encodeXYN]; omega

@[simp] theorem fieldY_encodeXYN : fieldY (encodeXYN t x y n) = y := by
  have := y.isLt; have := n.isLt
  apply BitVec.eq_of_toNat_eq; rw [toNat_fieldY, toNat_encodeXYN]; omega

@[simp] theorem fieldN_encodeXYN : fieldN (encodeXYN t x y n) = n := by
  have := n.isLt
  apply BitVec.eq_of_toNat_eq; rw [toNat_fieldN, toNat_encodeXYN]; omega

end Fields

/-! ## The masks of the opcode map (R100), field by field -/

/-- A word from its fields, most significant first (R91). -/
theorem word_eq_fields (w : Word) : w = encodeXYN (fieldType w) (fieldX w) (fieldY w) (fieldN w) := by
  have := w.isLt
  apply BitVec.eq_of_toNat_eq
  rw [toNat_encodeXYN, toNat_fieldType, toNat_fieldX, toNat_fieldY, toNat_fieldN]
  omega

theorem word_eq_fieldsXKK (w : Word) : w = encodeXKK (fieldType w) (fieldX w) (fieldKK w) := by
  have := w.isLt
  apply BitVec.eq_of_toNat_eq
  rw [toNat_encodeXKK, toNat_fieldType, toNat_fieldX, toNat_fieldKK]
  omega

theorem word_eq_fieldsNNN (w : Word) : w = encodeNNN (fieldType w) (fieldNNN w) := by
  have := w.isLt
  apply BitVec.eq_of_toNat_eq
  rw [toNat_encodeNNN, toNat_fieldType, toNat_fieldNNN]
  omega

/-- The sixteenth type, the one the decoder's last branch leaves (R101). -/
theorem nibble_eq_15 (t : Nibble) (h0 : t ≠ 0#4) (h1 : t ≠ 1#4) (h2 : t ≠ 2#4) (h3 : t ≠ 3#4) (h4 : t ≠ 4#4)
    (h5 : t ≠ 5#4) (h6 : t ≠ 6#4) (h7 : t ≠ 7#4) (h8 : t ≠ 8#4) (h9 : t ≠ 9#4) (hA : t ≠ 10#4) (hB : t ≠ 11#4)
    (hC : t ≠ 12#4) (hD : t ≠ 13#4) (hE : t ≠ 14#4) : t = 15#4 := by
  have := t.isLt
  simp only [ne_eq, ← BitVec.toNat_inj, BitVec.toNat_ofNat] at *
  omega

theorem nibble_and_15 (t : Nibble) : t &&& 15#4 = t := BitVec.and_allOnes

theorem byte_and_255 (b : Byte) : b &&& 255#8 = b := BitVec.and_allOnes

theorem encodeXYN_and (t x y n t' x' y' n' : Nibble) :
    encodeXYN t x y n &&& encodeXYN t' x' y' n' = encodeXYN (t &&& t') (x &&& x') (y &&& y') (n &&& n') := by
  show (t ++ x ++ y ++ n) &&& (t' ++ x' ++ y' ++ n') = (t &&& t') ++ (x &&& x') ++ (y &&& y') ++ (n &&& n')
  rw [BitVec.and_append, BitVec.and_append, BitVec.and_append]

theorem encodeXKK_and (t x t' x' : Nibble) (kk kk' : Byte) :
    encodeXKK t x kk &&& encodeXKK t' x' kk' = encodeXKK (t &&& t') (x &&& x') (kk &&& kk') := by
  show (t ++ x ++ kk) &&& (t' ++ x' ++ kk') = (t &&& t') ++ (x &&& x') ++ (kk &&& kk')
  rw [BitVec.and_append, BitVec.and_append]

theorem encodeNNN_and (t t' : Nibble) (a a' : Addr) :
    encodeNNN t a &&& encodeNNN t' a' = encodeNNN (t &&& t') (a &&& a') := by
  show (t ++ a) &&& (t' ++ a') = (t &&& t') ++ (a &&& a')
  rw [BitVec.and_append]

/-! ## Words and bytes (R66) -/

theorem toNat_wordOfBytes (hi lo : Byte) : (wordOfBytes hi lo).toNat = hi.toNat * 256 + lo.toNat := by
  show (hi ++ lo).toNat = _
  rw [BitVec.toNat_append, ← Nat.shiftLeft_add_eq_or_of_lt lo.isLt, Nat.shiftLeft_eq]

@[simp] theorem wordOfBytes_highByte_lowByte (w : Word) : wordOfBytes (highByte w) (lowByte w) = w := by
  have := w.isLt
  apply BitVec.eq_of_toNat_eq
  rw [toNat_wordOfBytes]
  simp only [highByte, lowByte, BitVec.extractLsb'_toNat, Nat.shiftRight_eq_div_pow]
  omega

/-- The decoder takes exactly the two bytes of an instruction (R90). -/
theorem decodeBytes_cons (hi lo : Byte) (rest : List Byte) :
    decodeBytes (hi :: lo :: rest) = (decode (wordOfBytes hi lo)).map (·, rest) := rfl

/-- A property of an answer of the decoder, from its two branches under their condition. -/
theorem decode_ite {P : Except DecodeError Instr → Prop} {c : Prop} [Decidable c] {a b : Except DecodeError Instr}
    (ha : c → P a) (hb : ¬ c → P b) : P (if c then a else b) := by
  split <;> simp_all

/-- A rejected word is rejected by its own name (R225). -/
theorem decode_error {w : Word} {e : DecodeError} (h : decode w = .error e) : e = .invalidOpcode w := by
  suffices ∀ e, decode w = .error e → e = .invalidOpcode w from this e h
  unfold decode decodeType8 decodeTypeE decodeTypeF
  repeat' refine decode_ite (P := fun r => ∀ e, r = .error e → e = .invalidOpcode w) (fun _ => ?_) (fun _ => ?_)
  all_goals (intro _ h; cases h)
  all_goals rfl

end Sys2Proof
end

