-- ==== Sys2Proof/Laws/Memory.lean ====
section
/-! SUPPORT. The laws of the one memory: a read after a write, and the canonical form, which every operation keeps. -/

namespace Sys2Proof.Machine

variable (c : Config)

/-! ## One byte -/

theorem Memory.find_insert (m : Memory) (a k : Nat) (b : Byte) :
    Memory.find (Memory.insert m a b) k = if a = k then some b else Memory.find m k := by
  induction m with
  | nil => simp [Memory.insert, Memory.find]
  | cons p m ih =>
    obtain ⟨q, v⟩ := p
    simp only [Memory.insert]
    split
    · simp [Memory.find]
    split
    · subst_vars; simp only [Memory.find]; split <;> simp_all
    · simp only [Memory.find, ih]; split <;> simp_all

theorem Memory.find_erase (m : Memory) (a k : Nat) :
    Memory.find (Memory.erase m a) k = if a = k then none else Memory.find m k := by
  induction m with
  | nil => simp [Memory.erase, Memory.find]
  | cons p m ih =>
    obtain ⟨q, v⟩ := p
    simp only [Memory.erase] at ih
    by_cases h : q = a
    · subst h
      simp only [Memory.erase, ne_eq, not_true_eq_false, decide_false, Bool.false_eq_true, not_false_eq_true,
        List.filter_cons_of_neg, ih, Memory.find]
      split <;> simp_all
    · simp only [Memory.erase, ne_eq, h, not_false_eq_true, decide_true, List.filter_cons_of_pos, Memory.find, ih]
      split
      · rw [if_neg (by omega)]
      · rfl

/-- A read after a write: the byte written at its address, every other byte as before (R64, R76). -/
theorem Memory.readByte_writeByte (m : Memory) (a k : Nat) (b : Byte) :
    Memory.readByte c (Memory.writeByte c m a b) k = if a = k then b else Memory.readByte c m k := by
  simp only [Memory.readByte, Memory.writeByte]
  split
  · simp only [Memory.find_erase]; split <;> simp_all
  · simp only [Memory.find_insert]; split <;> simp_all

theorem Memory.mem_insert {m : Memory} {a : Nat} {b : Byte} {p : Host.Cell} (h : p ∈ Memory.insert m a b) :
    p = (a, b) ∨ p ∈ m := by
  induction m with
  | nil => simpa [Memory.insert] using h
  | cons q m ih =>
    simp only [Memory.insert] at h
    split at h
    · simpa using h
    split at h
    · simp only [List.mem_cons] at h ⊢; tauto
    · simp only [List.mem_cons] at h ⊢
      rcases h with h | h
      · tauto
      · rcases ih h with h | h <;> tauto

theorem Memory.pairwise_insert {m : Memory} (a : Nat) (b : Byte)
    (h : m.Pairwise (fun p q => p.1 < q.1)) : (Memory.insert m a b).Pairwise (fun p q => p.1 < q.1) := by
  induction m with
  | nil => simp [Memory.insert]
  | cons q m ih =>
    obtain ⟨hq, hm⟩ := List.pairwise_cons.1 h
    simp only [Memory.insert]
    split
    · refine List.pairwise_cons.2 ⟨fun p hp => ?_, h⟩
      rcases List.mem_cons.1 hp with rfl | hp
      · assumption
      · exact lt_trans (by assumption) (hq p hp)
    split
    · exact List.pairwise_cons.2 ⟨by subst_vars; exact hq, hm⟩
    · refine List.pairwise_cons.2 ⟨fun p hp => ?_, ih hm⟩
      rcases Memory.mem_insert hp with rfl | hp
      · simp only; omega
      · exact hq p hp

/-- Storing a byte keeps the canonical form. -/
theorem Memory.wf_writeByte {m : Memory} {a : Nat} {b : Byte} (h : Memory.wf c m) (ha : a < memSize) :
    Memory.wf c (Memory.writeByte c m a b) := by
  obtain ⟨hs, hv⟩ := h
  simp only [Memory.writeByte]
  split
  · exact ⟨hs.filter _, fun p hp => hv p (List.mem_filter.1 hp).1⟩
  · refine ⟨Memory.pairwise_insert a b hs, fun p hp => ?_⟩
    rcases Memory.mem_insert hp with rfl | hp
    · exact ⟨ha, by assumption⟩
    · exact hv p hp

/-! ## Blocks -/

@[simp] theorem Memory.length_readBytes (m : Memory) (a n : Nat) : (Memory.readBytes c m a n).length = n := by
  induction n generalizing a with
  | zero => rfl
  | succ n ih => simp [Memory.readBytes, ih]

/-- A chunk read delivers the bytes at ascending addresses (R63). -/
theorem Memory.getElem?_readBytes (m : Memory) (a n i : Nat) (h : i < n) :
    (Memory.readBytes c m a n)[i]? = some (Memory.readByte c m (a + i)) := by
  induction n generalizing a i with
  | zero => omega
  | succ n ih =>
    cases i with
    | zero => rfl
    | succ i => simp only [Memory.readBytes, List.getElem?_cons_succ]; rw [ih _ _ (by omega)]; congr 2; omega

/-- A block write stores its bytes at ascending addresses and leaves every other byte alone (R64). -/
theorem Memory.readByte_writeBytes (m : Memory) (a k : Nat) (bs : List Byte) :
    Memory.readByte c (Memory.writeBytes c m a bs) k =
      if a ≤ k then (bs[k - a]?).getD (Memory.readByte c m k) else Memory.readByte c m k := by
  induction bs generalizing a m with
  | nil => simp [Memory.writeBytes]
  | cons b bs ih =>
    simp only [Memory.writeBytes, ih, Memory.readByte_writeByte]
    by_cases h : a = k
    · subst h; simp
    by_cases h' : a ≤ k
    · obtain ⟨d, rfl⟩ := Nat.exists_eq_add_of_lt (lt_of_le_of_ne h' h)
      simp only [show a + 1 ≤ a + d + 1 by omega, show a ≤ a + d + 1 by omega, show a ≠ a + d + 1 by omega,
        show a + d + 1 - a = d + 1 by omega, show a + d + 1 - (a + 1) = d by omega, if_true, if_false,
        List.getElem?_cons_succ]
    · rw [if_neg (by omega), if_neg h', if_neg h]

/-- A block write inside memory keeps the canonical form. -/
theorem Memory.wf_writeBytes {m : Memory} {a : Nat} {bs : List Byte} (h : Memory.wf c m)
    (hb : a + bs.length ≤ memSize) : Memory.wf c (Memory.writeBytes c m a bs) := by
  induction bs generalizing m a with
  | nil => exact h
  | cons b bs ih =>
    simp only [List.length_cons] at hb
    exact ih (Memory.wf_writeByte c h (by omega)) (by omega)

/-- Reset memory lists nothing, so it is canonical. -/
theorem Memory.wf_nil : Memory.wf c [] := ⟨List.Pairwise.nil, fun _ h => nomatch h⟩

@[simp] theorem Memory.readByte_nil (a : Nat) : Memory.readByte c [] a = c.resetByte a := rfl

/-! ## The two accesses of R12 -/

/-- All a chunk read can answer (R63). -/
theorem memRead_eq_some {s : State} {a n : Nat} {bs : List Byte} :
    s.memRead a n = some bs ↔ a + n ≤ memSize ∧ bs = Memory.readBytes s.cfg s.mem a n := by
  simp only [State.memRead, inBounds, decide_eq_true_eq]
  split <;> simp_all [eq_comm]

theorem memRead_eq_none {s : State} {a n : Nat} : s.memRead a n = none ↔ memSize < a + n := by
  simp [State.memRead, inBounds]

/-- All a block write can answer (R64): inside memory only `mem` changes. -/
theorem memWrite_eq_some {s t : State} {a : Nat} {bs : List Byte} :
    s.memWrite a bs = some t ↔
      a + bs.length ≤ memSize ∧ t = { s with mem := Memory.writeBytes s.cfg s.mem a bs } := by
  simp only [State.memWrite, inBounds, decide_eq_true_eq]
  split <;> simp_all [eq_comm]

theorem memWrite_eq_none {s : State} {a : Nat} {bs : List Byte} :
    s.memWrite a bs = none ↔ memSize < a + bs.length := by
  simp [State.memWrite, inBounds]

/-- What a reader sees after a block write (R64, R76). -/
theorem byteAt_of_memWrite {s t : State} {a : Nat} {bs : List Byte} (h : s.memWrite a bs = some t) (k : Nat) :
    t.byteAt k = if a ≤ k then (bs[k - a]?).getD (s.byteAt k) else s.byteAt k := by
  obtain ⟨-, rfl⟩ := memWrite_eq_some.1 h
  exact Memory.readByte_writeBytes _ _ _ _ _

/-- A block write keeps the canonical form. -/
theorem memOk_of_memWrite {s t : State} {a : Nat} {bs : List Byte} (h : s.memWrite a bs = some t)
    (hs : Memory.wf s.cfg s.mem) : Memory.wf t.cfg t.mem := by
  obtain ⟨hb, rfl⟩ := memWrite_eq_some.1 h
  exact Memory.wf_writeBytes _ hs hb

/-- The bytes of memory depend on the parameters and the memory alone. -/
theorem byteAt_congr {s t : State} (hc : t.cfg = s.cfg) (hm : t.mem = s.mem) (a : Nat) : t.byteAt a = s.byteAt a := by
  simp [State.byteAt, hc, hm]

end Sys2Proof.Machine
end

