-- ==== Sys2Proof/Laws/State.lean ====
section
/-! SUPPORT. What each named update of the state does to each field: one lemma per field per update. -/

namespace Sys2Proof.Machine

variable (s : State)

/-! ## setReg -/

@[simp] theorem setReg_mem (x : Nibble) (v : Byte) : (s.setReg x v).mem = s.mem := rfl
@[simp] theorem setReg_V (x : Nibble) (v : Byte) : (s.setReg x v).V = s.V.set x.toNat v x.isLt := rfl
@[simp] theorem setReg_I (x : Nibble) (v : Byte) : (s.setReg x v).I = s.I := rfl
@[simp] theorem setReg_PC (x : Nibble) (v : Byte) : (s.setReg x v).PC = s.PC := rfl
@[simp] theorem setReg_stack (x : Nibble) (v : Byte) : (s.setReg x v).stack = s.stack := rfl
@[simp] theorem setReg_SP (x : Nibble) (v : Byte) : (s.setReg x v).SP = s.SP := rfl
@[simp] theorem setReg_DT (x : Nibble) (v : Byte) : (s.setReg x v).DT = s.DT := rfl
@[simp] theorem setReg_ST (x : Nibble) (v : Byte) : (s.setReg x v).ST = s.ST := rfl
@[simp] theorem setReg_key (x : Nibble) (v : Byte) : (s.setReg x v).key = s.key := rfl
@[simp] theorem setReg_fb (x : Nibble) (v : Byte) : (s.setReg x v).fb = s.fb := rfl
@[simp] theorem setReg_redraw (x : Nibble) (v : Byte) : (s.setReg x v).redraw = s.redraw := rfl
@[simp] theorem setReg_awaiting (x : Nibble) (v : Byte) : (s.setReg x v).awaiting = s.awaiting := rfl
@[simp] theorem setReg_waitX (x : Nibble) (v : Byte) : (s.setReg x v).waitX = s.waitX := rfl
@[simp] theorem setReg_cfg (x : Nibble) (v : Byte) : (s.setReg x v).cfg = s.cfg := rfl
@[simp] theorem setReg_result (x : Nibble) (v : Byte) : (s.setReg x v).result = s.result := rfl
@[simp] theorem setReg_rndIn (x : Nibble) (v : Byte) : (s.setReg x v).rndIn = s.rndIn := rfl
@[simp] theorem setReg_draws (x : Nibble) (v : Byte) : (s.setReg x v).draws = s.draws := rfl

/-! ## setI -/

@[simp] theorem setI_mem (v : Word) : (s.setI v).mem = s.mem := rfl
@[simp] theorem setI_V (v : Word) : (s.setI v).V = s.V := rfl
@[simp] theorem setI_I (v : Word) : (s.setI v).I = v := rfl
@[simp] theorem setI_PC (v : Word) : (s.setI v).PC = s.PC := rfl
@[simp] theorem setI_stack (v : Word) : (s.setI v).stack = s.stack := rfl
@[simp] theorem setI_SP (v : Word) : (s.setI v).SP = s.SP := rfl
@[simp] theorem setI_DT (v : Word) : (s.setI v).DT = s.DT := rfl
@[simp] theorem setI_ST (v : Word) : (s.setI v).ST = s.ST := rfl
@[simp] theorem setI_key (v : Word) : (s.setI v).key = s.key := rfl
@[simp] theorem setI_fb (v : Word) : (s.setI v).fb = s.fb := rfl
@[simp] theorem setI_redraw (v : Word) : (s.setI v).redraw = s.redraw := rfl
@[simp] theorem setI_awaiting (v : Word) : (s.setI v).awaiting = s.awaiting := rfl
@[simp] theorem setI_waitX (v : Word) : (s.setI v).waitX = s.waitX := rfl
@[simp] theorem setI_cfg (v : Word) : (s.setI v).cfg = s.cfg := rfl
@[simp] theorem setI_result (v : Word) : (s.setI v).result = s.result := rfl
@[simp] theorem setI_rndIn (v : Word) : (s.setI v).rndIn = s.rndIn := rfl
@[simp] theorem setI_draws (v : Word) : (s.setI v).draws = s.draws := rfl

/-! ## setDT -/

@[simp] theorem setDT_mem (v : Byte) : (s.setDT v).mem = s.mem := rfl
@[simp] theorem setDT_V (v : Byte) : (s.setDT v).V = s.V := rfl
@[simp] theorem setDT_I (v : Byte) : (s.setDT v).I = s.I := rfl
@[simp] theorem setDT_PC (v : Byte) : (s.setDT v).PC = s.PC := rfl
@[simp] theorem setDT_stack (v : Byte) : (s.setDT v).stack = s.stack := rfl
@[simp] theorem setDT_SP (v : Byte) : (s.setDT v).SP = s.SP := rfl
@[simp] theorem setDT_DT (v : Byte) : (s.setDT v).DT = v := rfl
@[simp] theorem setDT_ST (v : Byte) : (s.setDT v).ST = s.ST := rfl
@[simp] theorem setDT_key (v : Byte) : (s.setDT v).key = s.key := rfl
@[simp] theorem setDT_fb (v : Byte) : (s.setDT v).fb = s.fb := rfl
@[simp] theorem setDT_redraw (v : Byte) : (s.setDT v).redraw = s.redraw := rfl
@[simp] theorem setDT_awaiting (v : Byte) : (s.setDT v).awaiting = s.awaiting := rfl
@[simp] theorem setDT_waitX (v : Byte) : (s.setDT v).waitX = s.waitX := rfl
@[simp] theorem setDT_cfg (v : Byte) : (s.setDT v).cfg = s.cfg := rfl
@[simp] theorem setDT_result (v : Byte) : (s.setDT v).result = s.result := rfl
@[simp] theorem setDT_rndIn (v : Byte) : (s.setDT v).rndIn = s.rndIn := rfl
@[simp] theorem setDT_draws (v : Byte) : (s.setDT v).draws = s.draws := rfl

/-! ## setST -/

@[simp] theorem setST_mem (v : Byte) : (s.setST v).mem = s.mem := rfl
@[simp] theorem setST_V (v : Byte) : (s.setST v).V = s.V := rfl
@[simp] theorem setST_I (v : Byte) : (s.setST v).I = s.I := rfl
@[simp] theorem setST_PC (v : Byte) : (s.setST v).PC = s.PC := rfl
@[simp] theorem setST_stack (v : Byte) : (s.setST v).stack = s.stack := rfl
@[simp] theorem setST_SP (v : Byte) : (s.setST v).SP = s.SP := rfl
@[simp] theorem setST_DT (v : Byte) : (s.setST v).DT = s.DT := rfl
@[simp] theorem setST_ST (v : Byte) : (s.setST v).ST = v := rfl
@[simp] theorem setST_key (v : Byte) : (s.setST v).key = s.key := rfl
@[simp] theorem setST_fb (v : Byte) : (s.setST v).fb = s.fb := rfl
@[simp] theorem setST_redraw (v : Byte) : (s.setST v).redraw = s.redraw := rfl
@[simp] theorem setST_awaiting (v : Byte) : (s.setST v).awaiting = s.awaiting := rfl
@[simp] theorem setST_waitX (v : Byte) : (s.setST v).waitX = s.waitX := rfl
@[simp] theorem setST_cfg (v : Byte) : (s.setST v).cfg = s.cfg := rfl
@[simp] theorem setST_result (v : Byte) : (s.setST v).result = s.result := rfl
@[simp] theorem setST_rndIn (v : Byte) : (s.setST v).rndIn = s.rndIn := rfl
@[simp] theorem setST_draws (v : Byte) : (s.setST v).draws = s.draws := rfl

/-! ## jumpTo -/

@[simp] theorem jumpTo_mem (v : Word) : (s.jumpTo v).mem = s.mem := rfl
@[simp] theorem jumpTo_V (v : Word) : (s.jumpTo v).V = s.V := rfl
@[simp] theorem jumpTo_I (v : Word) : (s.jumpTo v).I = s.I := rfl
@[simp] theorem jumpTo_PC (v : Word) : (s.jumpTo v).PC = v := rfl
@[simp] theorem jumpTo_stack (v : Word) : (s.jumpTo v).stack = s.stack := rfl
@[simp] theorem jumpTo_SP (v : Word) : (s.jumpTo v).SP = s.SP := rfl
@[simp] theorem jumpTo_DT (v : Word) : (s.jumpTo v).DT = s.DT := rfl
@[simp] theorem jumpTo_ST (v : Word) : (s.jumpTo v).ST = s.ST := rfl
@[simp] theorem jumpTo_key (v : Word) : (s.jumpTo v).key = s.key := rfl
@[simp] theorem jumpTo_fb (v : Word) : (s.jumpTo v).fb = s.fb := rfl
@[simp] theorem jumpTo_redraw (v : Word) : (s.jumpTo v).redraw = s.redraw := rfl
@[simp] theorem jumpTo_awaiting (v : Word) : (s.jumpTo v).awaiting = s.awaiting := rfl
@[simp] theorem jumpTo_waitX (v : Word) : (s.jumpTo v).waitX = s.waitX := rfl
@[simp] theorem jumpTo_cfg (v : Word) : (s.jumpTo v).cfg = s.cfg := rfl
@[simp] theorem jumpTo_result (v : Word) : (s.jumpTo v).result = s.result := rfl
@[simp] theorem jumpTo_rndIn (v : Word) : (s.jumpTo v).rndIn = s.rndIn := rfl
@[simp] theorem jumpTo_draws (v : Word) : (s.jumpTo v).draws = s.draws := rfl

/-! ## advance -/

@[simp] theorem advance_mem : (s.advance).mem = s.mem := rfl
@[simp] theorem advance_V : (s.advance).V = s.V := rfl
@[simp] theorem advance_I : (s.advance).I = s.I := rfl
@[simp] theorem advance_PC : (s.advance).PC = s.PC + 2 := rfl
@[simp] theorem advance_stack : (s.advance).stack = s.stack := rfl
@[simp] theorem advance_SP : (s.advance).SP = s.SP := rfl
@[simp] theorem advance_DT : (s.advance).DT = s.DT := rfl
@[simp] theorem advance_ST : (s.advance).ST = s.ST := rfl
@[simp] theorem advance_key : (s.advance).key = s.key := rfl
@[simp] theorem advance_fb : (s.advance).fb = s.fb := rfl
@[simp] theorem advance_redraw : (s.advance).redraw = s.redraw := rfl
@[simp] theorem advance_awaiting : (s.advance).awaiting = s.awaiting := rfl
@[simp] theorem advance_waitX : (s.advance).waitX = s.waitX := rfl
@[simp] theorem advance_cfg : (s.advance).cfg = s.cfg := rfl
@[simp] theorem advance_result : (s.advance).result = none := rfl
@[simp] theorem advance_rndIn : (s.advance).rndIn = s.rndIn := rfl
@[simp] theorem advance_draws : (s.advance).draws = s.draws := rfl

/-! ## push -/

@[simp] theorem push_mem (v : Word) : (s.push v).mem = s.mem := rfl
@[simp] theorem push_V (v : Word) : (s.push v).V = s.V := rfl
@[simp] theorem push_I (v : Word) : (s.push v).I = s.I := rfl
@[simp] theorem push_PC (v : Word) : (s.push v).PC = s.PC := rfl
@[simp] theorem push_stack (v : Word) : (s.push v).stack = s.stack.set s.SP v := rfl
@[simp] theorem push_SP (v : Word) : (s.push v).SP = s.SP + 1 := rfl
@[simp] theorem push_DT (v : Word) : (s.push v).DT = s.DT := rfl
@[simp] theorem push_ST (v : Word) : (s.push v).ST = s.ST := rfl
@[simp] theorem push_key (v : Word) : (s.push v).key = s.key := rfl
@[simp] theorem push_fb (v : Word) : (s.push v).fb = s.fb := rfl
@[simp] theorem push_redraw (v : Word) : (s.push v).redraw = s.redraw := rfl
@[simp] theorem push_awaiting (v : Word) : (s.push v).awaiting = s.awaiting := rfl
@[simp] theorem push_waitX (v : Word) : (s.push v).waitX = s.waitX := rfl
@[simp] theorem push_cfg (v : Word) : (s.push v).cfg = s.cfg := rfl
@[simp] theorem push_result (v : Word) : (s.push v).result = s.result := rfl
@[simp] theorem push_rndIn (v : Word) : (s.push v).rndIn = s.rndIn := rfl
@[simp] theorem push_draws (v : Word) : (s.push v).draws = s.draws := rfl

/-! ## pop -/

@[simp] theorem pop_mem : (s.pop).mem = s.mem := rfl
@[simp] theorem pop_V : (s.pop).V = s.V := rfl
@[simp] theorem pop_I : (s.pop).I = s.I := rfl
@[simp] theorem pop_PC : (s.pop).PC = s.PC := rfl
@[simp] theorem pop_stack : (s.pop).stack = s.stack := rfl
@[simp] theorem pop_SP : (s.pop).SP = s.SP - 1 := rfl
@[simp] theorem pop_DT : (s.pop).DT = s.DT := rfl
@[simp] theorem pop_ST : (s.pop).ST = s.ST := rfl
@[simp] theorem pop_key : (s.pop).key = s.key := rfl
@[simp] theorem pop_fb : (s.pop).fb = s.fb := rfl
@[simp] theorem pop_redraw : (s.pop).redraw = s.redraw := rfl
@[simp] theorem pop_awaiting : (s.pop).awaiting = s.awaiting := rfl
@[simp] theorem pop_waitX : (s.pop).waitX = s.waitX := rfl
@[simp] theorem pop_cfg : (s.pop).cfg = s.cfg := rfl
@[simp] theorem pop_result : (s.pop).result = s.result := rfl
@[simp] theorem pop_rndIn : (s.pop).rndIn = s.rndIn := rfl
@[simp] theorem pop_draws : (s.pop).draws = s.draws := rfl

/-! ## doTick -/

@[simp] theorem doTick_mem : (s.doTick).mem = s.mem := rfl
@[simp] theorem doTick_V : (s.doTick).V = s.V := rfl
@[simp] theorem doTick_I : (s.doTick).I = s.I := rfl
@[simp] theorem doTick_PC : (s.doTick).PC = s.PC := rfl
@[simp] theorem doTick_stack : (s.doTick).stack = s.stack := rfl
@[simp] theorem doTick_SP : (s.doTick).SP = s.SP := rfl
@[simp] theorem doTick_DT : (s.doTick).DT = countDown s.DT := rfl
@[simp] theorem doTick_ST : (s.doTick).ST = countDown s.ST := rfl
@[simp] theorem doTick_key : (s.doTick).key = s.key := rfl
@[simp] theorem doTick_fb : (s.doTick).fb = s.fb := rfl
@[simp] theorem doTick_redraw : (s.doTick).redraw = s.redraw := rfl
@[simp] theorem doTick_awaiting : (s.doTick).awaiting = s.awaiting := rfl
@[simp] theorem doTick_waitX : (s.doTick).waitX = s.waitX := rfl
@[simp] theorem doTick_cfg : (s.doTick).cfg = s.cfg := rfl
@[simp] theorem doTick_result : (s.doTick).result = s.result := rfl
@[simp] theorem doTick_rndIn : (s.doTick).rndIn = s.rndIn := rfl
@[simp] theorem doTick_draws : (s.doTick).draws = s.draws := rfl

/-! ## doSetKey -/

@[simp] theorem doSetKey_mem (k : Nibble) (b : Bool) : (s.doSetKey k b).mem = s.mem := rfl
@[simp] theorem doSetKey_V (k : Nibble) (b : Bool) : (s.doSetKey k b).V = s.V := rfl
@[simp] theorem doSetKey_I (k : Nibble) (b : Bool) : (s.doSetKey k b).I = s.I := rfl
@[simp] theorem doSetKey_PC (k : Nibble) (b : Bool) : (s.doSetKey k b).PC = s.PC := rfl
@[simp] theorem doSetKey_stack (k : Nibble) (b : Bool) : (s.doSetKey k b).stack = s.stack := rfl
@[simp] theorem doSetKey_SP (k : Nibble) (b : Bool) : (s.doSetKey k b).SP = s.SP := rfl
@[simp] theorem doSetKey_DT (k : Nibble) (b : Bool) : (s.doSetKey k b).DT = s.DT := rfl
@[simp] theorem doSetKey_ST (k : Nibble) (b : Bool) : (s.doSetKey k b).ST = s.ST := rfl
@[simp] theorem doSetKey_key (k : Nibble) (b : Bool) : (s.doSetKey k b).key = s.key.set k.toNat b k.isLt := rfl
@[simp] theorem doSetKey_fb (k : Nibble) (b : Bool) : (s.doSetKey k b).fb = s.fb := rfl
@[simp] theorem doSetKey_redraw (k : Nibble) (b : Bool) : (s.doSetKey k b).redraw = s.redraw := rfl
@[simp] theorem doSetKey_awaiting (k : Nibble) (b : Bool) : (s.doSetKey k b).awaiting = s.awaiting := rfl
@[simp] theorem doSetKey_waitX (k : Nibble) (b : Bool) : (s.doSetKey k b).waitX = s.waitX := rfl
@[simp] theorem doSetKey_cfg (k : Nibble) (b : Bool) : (s.doSetKey k b).cfg = s.cfg := rfl
@[simp] theorem doSetKey_result (k : Nibble) (b : Bool) : (s.doSetKey k b).result = s.result := rfl
@[simp] theorem doSetKey_rndIn (k : Nibble) (b : Bool) : (s.doSetKey k b).rndIn = s.rndIn := rfl
@[simp] theorem doSetKey_draws (k : Nibble) (b : Bool) : (s.doSetKey k b).draws = s.draws := rfl

/-! ## doAckRedraw -/

@[simp] theorem doAckRedraw_mem : (s.doAckRedraw).mem = s.mem := rfl
@[simp] theorem doAckRedraw_V : (s.doAckRedraw).V = s.V := rfl
@[simp] theorem doAckRedraw_I : (s.doAckRedraw).I = s.I := rfl
@[simp] theorem doAckRedraw_PC : (s.doAckRedraw).PC = s.PC := rfl
@[simp] theorem doAckRedraw_stack : (s.doAckRedraw).stack = s.stack := rfl
@[simp] theorem doAckRedraw_SP : (s.doAckRedraw).SP = s.SP := rfl
@[simp] theorem doAckRedraw_DT : (s.doAckRedraw).DT = s.DT := rfl
@[simp] theorem doAckRedraw_ST : (s.doAckRedraw).ST = s.ST := rfl
@[simp] theorem doAckRedraw_key : (s.doAckRedraw).key = s.key := rfl
@[simp] theorem doAckRedraw_fb : (s.doAckRedraw).fb = s.fb := rfl
@[simp] theorem doAckRedraw_redraw : (s.doAckRedraw).redraw = false := rfl
@[simp] theorem doAckRedraw_awaiting : (s.doAckRedraw).awaiting = s.awaiting := rfl
@[simp] theorem doAckRedraw_waitX : (s.doAckRedraw).waitX = s.waitX := rfl
@[simp] theorem doAckRedraw_cfg : (s.doAckRedraw).cfg = s.cfg := rfl
@[simp] theorem doAckRedraw_result : (s.doAckRedraw).result = s.result := rfl
@[simp] theorem doAckRedraw_rndIn : (s.doAckRedraw).rndIn = s.rndIn := rfl
@[simp] theorem doAckRedraw_draws : (s.doAckRedraw).draws = s.draws := rfl

/-! ## skipIf -/

@[simp] theorem skipIf_mem (b : Bool) : (s.skipIf b).mem = s.mem := by cases b <;> rfl
@[simp] theorem skipIf_V (b : Bool) : (s.skipIf b).V = s.V := by cases b <;> rfl
@[simp] theorem skipIf_I (b : Bool) : (s.skipIf b).I = s.I := by cases b <;> rfl
@[simp] theorem skipIf_PC (b : Bool) : (s.skipIf b).PC = (if b then s.PC + 2 else s.PC) := by cases b <;> rfl
@[simp] theorem skipIf_stack (b : Bool) : (s.skipIf b).stack = s.stack := by cases b <;> rfl
@[simp] theorem skipIf_SP (b : Bool) : (s.skipIf b).SP = s.SP := by cases b <;> rfl
@[simp] theorem skipIf_DT (b : Bool) : (s.skipIf b).DT = s.DT := by cases b <;> rfl
@[simp] theorem skipIf_ST (b : Bool) : (s.skipIf b).ST = s.ST := by cases b <;> rfl
@[simp] theorem skipIf_key (b : Bool) : (s.skipIf b).key = s.key := by cases b <;> rfl
@[simp] theorem skipIf_fb (b : Bool) : (s.skipIf b).fb = s.fb := by cases b <;> rfl
@[simp] theorem skipIf_redraw (b : Bool) : (s.skipIf b).redraw = s.redraw := by cases b <;> rfl
@[simp] theorem skipIf_awaiting (b : Bool) : (s.skipIf b).awaiting = s.awaiting := by cases b <;> rfl
@[simp] theorem skipIf_waitX (b : Bool) : (s.skipIf b).waitX = s.waitX := by cases b <;> rfl
@[simp] theorem skipIf_cfg (b : Bool) : (s.skipIf b).cfg = s.cfg := by cases b <;> rfl
@[simp] theorem skipIf_result (b : Bool) : (s.skipIf b).result = s.result := by cases b <;> rfl
@[simp] theorem skipIf_rndIn (b : Bool) : (s.skipIf b).rndIn = s.rndIn := by cases b <;> rfl
@[simp] theorem skipIf_draws (b : Bool) : (s.skipIf b).draws = s.draws := by cases b <;> rfl

/-! ## keyPoll, the fields a poll never writes -/

@[simp] theorem keyPoll_mem (r : Nibble) : (s.keyPoll r).mem = s.mem := by unfold State.keyPoll; split <;> rfl
@[simp] theorem keyPoll_I (r : Nibble) : (s.keyPoll r).I = s.I := by unfold State.keyPoll; split <;> rfl
@[simp] theorem keyPoll_PC (r : Nibble) : (s.keyPoll r).PC = s.PC := by unfold State.keyPoll; split <;> rfl
@[simp] theorem keyPoll_stack (r : Nibble) : (s.keyPoll r).stack = s.stack := by unfold State.keyPoll; split <;> rfl
@[simp] theorem keyPoll_SP (r : Nibble) : (s.keyPoll r).SP = s.SP := by unfold State.keyPoll; split <;> rfl
@[simp] theorem keyPoll_DT (r : Nibble) : (s.keyPoll r).DT = s.DT := by unfold State.keyPoll; split <;> rfl
@[simp] theorem keyPoll_ST (r : Nibble) : (s.keyPoll r).ST = s.ST := by unfold State.keyPoll; split <;> rfl
@[simp] theorem keyPoll_key (r : Nibble) : (s.keyPoll r).key = s.key := by unfold State.keyPoll; split <;> rfl
@[simp] theorem keyPoll_fb (r : Nibble) : (s.keyPoll r).fb = s.fb := by unfold State.keyPoll; split <;> rfl
@[simp] theorem keyPoll_redraw (r : Nibble) : (s.keyPoll r).redraw = s.redraw := by unfold State.keyPoll; split <;> rfl
@[simp] theorem keyPoll_cfg (r : Nibble) : (s.keyPoll r).cfg = s.cfg := by unfold State.keyPoll; split <;> rfl
@[simp] theorem keyPoll_result (r : Nibble) : (s.keyPoll r).result = s.result := by unfold State.keyPoll; split <;> rfl
@[simp] theorem keyPoll_rndIn (r : Nibble) : (s.keyPoll r).rndIn = s.rndIn := by unfold State.keyPoll; split <;> rfl
@[simp] theorem keyPoll_draws (r : Nibble) : (s.keyPoll r).draws = s.draws := by unfold State.keyPoll; split <;> rfl

/-! ## randomUsed, the fields a draw never writes -/

@[simp] theorem randomUsed_mem : s.randomUsed.mem = s.mem := by unfold State.randomUsed; split <;> rfl
@[simp] theorem randomUsed_V : s.randomUsed.V = s.V := by unfold State.randomUsed; split <;> rfl
@[simp] theorem randomUsed_I : s.randomUsed.I = s.I := by unfold State.randomUsed; split <;> rfl
@[simp] theorem randomUsed_PC : s.randomUsed.PC = s.PC := by unfold State.randomUsed; split <;> rfl
@[simp] theorem randomUsed_stack : s.randomUsed.stack = s.stack := by unfold State.randomUsed; split <;> rfl
@[simp] theorem randomUsed_SP : s.randomUsed.SP = s.SP := by unfold State.randomUsed; split <;> rfl
@[simp] theorem randomUsed_DT : s.randomUsed.DT = s.DT := by unfold State.randomUsed; split <;> rfl
@[simp] theorem randomUsed_ST : s.randomUsed.ST = s.ST := by unfold State.randomUsed; split <;> rfl
@[simp] theorem randomUsed_key : s.randomUsed.key = s.key := by unfold State.randomUsed; split <;> rfl
@[simp] theorem randomUsed_fb : s.randomUsed.fb = s.fb := by unfold State.randomUsed; split <;> rfl
@[simp] theorem randomUsed_redraw : s.randomUsed.redraw = s.redraw := by unfold State.randomUsed; split <;> rfl
@[simp] theorem randomUsed_awaiting : s.randomUsed.awaiting = s.awaiting := by unfold State.randomUsed; split <;> rfl
@[simp] theorem randomUsed_waitX : s.randomUsed.waitX = s.waitX := by unfold State.randomUsed; split <;> rfl
@[simp] theorem randomUsed_cfg : s.randomUsed.cfg = s.cfg := by unfold State.randomUsed; split <;> rfl
@[simp] theorem randomUsed_result : s.randomUsed.result = s.result := by unfold State.randomUsed; split <;> rfl

/-! ## setRegsFrom, the fields a block load never writes -/

@[simp] theorem setRegsFrom_mem (i : Nat) (bs : List Byte) : (s.setRegsFrom i bs).mem = s.mem := by
  induction bs generalizing s i with
  | nil => rfl
  | cons b bs ih => simp [State.setRegsFrom, ih]
@[simp] theorem setRegsFrom_I (i : Nat) (bs : List Byte) : (s.setRegsFrom i bs).I = s.I := by
  induction bs generalizing s i with
  | nil => rfl
  | cons b bs ih => simp [State.setRegsFrom, ih]
@[simp] theorem setRegsFrom_PC (i : Nat) (bs : List Byte) : (s.setRegsFrom i bs).PC = s.PC := by
  induction bs generalizing s i with
  | nil => rfl
  | cons b bs ih => simp [State.setRegsFrom, ih]
@[simp] theorem setRegsFrom_stack (i : Nat) (bs : List Byte) : (s.setRegsFrom i bs).stack = s.stack := by
  induction bs generalizing s i with
  | nil => rfl
  | cons b bs ih => simp [State.setRegsFrom, ih]
@[simp] theorem setRegsFrom_SP (i : Nat) (bs : List Byte) : (s.setRegsFrom i bs).SP = s.SP := by
  induction bs generalizing s i with
  | nil => rfl
  | cons b bs ih => simp [State.setRegsFrom, ih]
@[simp] theorem setRegsFrom_DT (i : Nat) (bs : List Byte) : (s.setRegsFrom i bs).DT = s.DT := by
  induction bs generalizing s i with
  | nil => rfl
  | cons b bs ih => simp [State.setRegsFrom, ih]
@[simp] theorem setRegsFrom_ST (i : Nat) (bs : List Byte) : (s.setRegsFrom i bs).ST = s.ST := by
  induction bs generalizing s i with
  | nil => rfl
  | cons b bs ih => simp [State.setRegsFrom, ih]
@[simp] theorem setRegsFrom_key (i : Nat) (bs : List Byte) : (s.setRegsFrom i bs).key = s.key := by
  induction bs generalizing s i with
  | nil => rfl
  | cons b bs ih => simp [State.setRegsFrom, ih]
@[simp] theorem setRegsFrom_fb (i : Nat) (bs : List Byte) : (s.setRegsFrom i bs).fb = s.fb := by
  induction bs generalizing s i with
  | nil => rfl
  | cons b bs ih => simp [State.setRegsFrom, ih]
@[simp] theorem setRegsFrom_redraw (i : Nat) (bs : List Byte) : (s.setRegsFrom i bs).redraw = s.redraw := by
  induction bs generalizing s i with
  | nil => rfl
  | cons b bs ih => simp [State.setRegsFrom, ih]
@[simp] theorem setRegsFrom_awaiting (i : Nat) (bs : List Byte) : (s.setRegsFrom i bs).awaiting = s.awaiting := by
  induction bs generalizing s i with
  | nil => rfl
  | cons b bs ih => simp [State.setRegsFrom, ih]
@[simp] theorem setRegsFrom_waitX (i : Nat) (bs : List Byte) : (s.setRegsFrom i bs).waitX = s.waitX := by
  induction bs generalizing s i with
  | nil => rfl
  | cons b bs ih => simp [State.setRegsFrom, ih]
@[simp] theorem setRegsFrom_cfg (i : Nat) (bs : List Byte) : (s.setRegsFrom i bs).cfg = s.cfg := by
  induction bs generalizing s i with
  | nil => rfl
  | cons b bs ih => simp [State.setRegsFrom, ih]
@[simp] theorem setRegsFrom_result (i : Nat) (bs : List Byte) : (s.setRegsFrom i bs).result = s.result := by
  induction bs generalizing s i with
  | nil => rfl
  | cons b bs ih => simp [State.setRegsFrom, ih]
@[simp] theorem setRegsFrom_rndIn (i : Nat) (bs : List Byte) : (s.setRegsFrom i bs).rndIn = s.rndIn := by
  induction bs generalizing s i with
  | nil => rfl
  | cons b bs ih => simp [State.setRegsFrom, ih]
@[simp] theorem setRegsFrom_draws (i : Nat) (bs : List Byte) : (s.setRegsFrom i bs).draws = s.draws := by
  induction bs generalizing s i with
  | nil => rfl
  | cons b bs ih => simp [State.setRegsFrom, ih]

/-! ## setVF -/

/-- VF has no storage of its own (R22). -/
@[simp] theorem setVF_eq_setReg (v : Byte) : s.setVF v = s.setReg flagReg v := rfl

end Sys2Proof.Machine
end

