-- ==== Sys2Proof/Laws/Ops.lean ====
section
/-! SUPPORT. What each shared operation can do, said once. -/

namespace Sys2Proof.Machine

/-! ## Registers -/

/-- A register after a register write (R11, R21). -/
theorem reg_setReg (s : State) (x y : Nibble) (v : Byte) :
    (s.setReg x v).reg y = if x = y then v else s.reg y := by
  simp only [State.reg, State.setReg, Vector.getElem_set, BitVec.toNat_inj]

@[simp] theorem reg_setReg_self (s : State) (x : Nibble) (v : Byte) : (s.setReg x v).reg x = v := by
  simp [reg_setReg]

theorem reg_setReg_ne (s : State) {x y : Nibble} (v : Byte) (h : x ≠ y) : (s.setReg x v).reg y = s.reg y := by
  simp [reg_setReg, h]

/-- A register depends on the register file alone. -/
theorem reg_congr {s t : State} (h : t.V = s.V) (y : Nibble) : t.reg y = s.reg y := by simp [State.reg, h]

@[simp] theorem length_regsFrom (s : State) (i n : Nat) : (s.regsFrom i n).length = n := by
  induction n generalizing i with
  | zero => rfl
  | succ n ih => simp [State.regsFrom, ih]

/-- The registers a block store takes, in order (R176). -/
theorem getElem?_regsFrom (s : State) (i n k : Nat) (h : k < n) :
    (s.regsFrom i n)[k]? = some (s.reg (BitVec.ofNat 4 (i + k))) := by
  induction n generalizing i k with
  | zero => omega
  | succ n ih =>
    cases k with
    | zero => rfl
    | succ k =>
      simp only [State.regsFrom, List.getElem?_cons_succ]
      rw [ih _ _ (by omega)]
      congr 3
      omega

/-- A register after a block load (R177): loaded inside the range, unchanged outside it. -/
theorem reg_setRegsFrom (s : State) (i : Nat) (bs : List Byte) (y : Nibble) (h : i + bs.length ≤ 16) :
    (s.setRegsFrom i bs).reg y = if i ≤ y.toNat then (bs[y.toNat - i]?).getD (s.reg y) else s.reg y := by
  induction bs generalizing s i with
  | nil => simp [State.setRegsFrom]
  | cons b bs ih =>
    simp only [List.length_cons] at h
    simp only [State.setRegsFrom]
    rw [ih _ _ (by omega)]
    have hi : (BitVec.ofNat 4 i).toNat = i := by rw [BitVec.toNat_ofNat]; omega
    simp only [reg_setReg, ← BitVec.toNat_inj, hi]
    rcases Nat.lt_trichotomy i y.toNat with h' | h' | h'
    · obtain ⟨d, hd⟩ := Nat.exists_eq_add_of_lt h'
      simp only [hd, show i + 1 ≤ i + d + 1 by omega, show i ≤ i + d + 1 by omega, show i ≠ i + d + 1 by omega,
        show i + d + 1 - i = d + 1 by omega, show i + d + 1 - (i + 1) = d by omega, if_true, if_false,
        List.getElem?_cons_succ]
    · simp [← h']
    · simp only [show ¬ i + 1 ≤ y.toNat by omega, show ¬ i ≤ y.toNat by omega, show i ≠ y.toNat by omega, if_false]

/-! ## Flags and operands -/

theorem flagByte_eq (b : Bool) : flagByte b = if b then 1 else 0 := rfl

/-- The low nibble of a byte as a number mod 16 (R172, R200). -/
theorem lowNibble_eq (b : Byte) : lowNibble b = BitVec.ofNat 4 b.toNat :=
  BitVec.eq_of_toNat_eq (by simp [lowNibble])

/-! ## Faults -/

/-- All that taking a fault can do: the record is the result and nothing else changes (R228). -/
theorem takeFault_eq (f : Fault) (s : State) : takeFault f s = .next { s with result := some f } := rfl

/-- All that an access through `I` can answer. -/
theorem orOutOfBounds_cases {i : Instr} {s t : State} {o : Option State} (h : orOutOfBounds i s o = .next t) :
    o = some t ∨ (o = none ∧ t = { s with result := some (.outOfBounds s.opPC (encode i) s.I) }) := by
  cases o with
  | none => exact .inr ⟨rfl, (Host.Outcome.next.inj h).symm⟩
  | some u => exact .inl (congrArg some (Host.Outcome.next.inj h))

theorem orOutOfBounds_next (i : Instr) (s : State) (o : Option State) : ∃ t, orOutOfBounds i s o = .next t := by
  cases o <;> exact ⟨_, rfl⟩

/-! ## The keypad -/

/-- The least pressed key: pressed, and no lower one is (R203). -/
theorem lowestKey_eq_some {s : State} {k : Nibble} (h : s.lowestKey = some k) :
    s.keyDown k = true ∧ ∀ j : Nibble, j.toNat < k.toNat → s.keyDown j = false := by
  obtain ⟨hk, as, bs, hl, hb⟩ := List.find?_eq_some_iff_append.1 h
  refine ⟨hk, fun j hj => ?_⟩
  have hlen : ∀ m (hm : m < 16), ((List.range 16).map (BitVec.ofNat 4))[m]? = some (BitVec.ofNat 4 m) := by
    intro m hm; simp [hm]
  have hj16 : j.toNat < 16 := j.isLt
  have hk16 : k.toNat < 16 := k.isLt
  have hpos : k = BitVec.ofNat 4 as.length := by
    have hlt : as.length < 16 := by
      have := congrArg List.length hl
      simp only [List.length_map, List.length_range, List.length_append, List.length_cons] at this
      omega
    have h1 := hlen as.length hlt
    rw [hl, List.getElem?_append_right (le_refl _)] at h1
    simpa using h1
  have hlt : as.length < 16 := by
    have := congrArg List.length hl
    simp only [List.length_map, List.length_range, List.length_append, List.length_cons] at this
    omega
  have hka : k.toNat = as.length := by rw [hpos, BitVec.toNat_ofNat]; omega
  have h2 := hlen j.toNat hj16
  rw [hl, List.getElem?_append_left (by omega)] at h2
  have h3 := hb _ (List.mem_of_getElem? h2)
  simpa using h3

theorem lowestKey_eq_none {s : State} (h : s.lowestKey = none) (k : Nibble) : s.keyDown k = false := by
  have := List.find?_eq_none.1 h k (List.mem_map.2 ⟨k.toNat, by simpa using k.isLt, by simp⟩)
  simpa using this

/-- A pressed key below which none is pressed is the one a poll finds (R203). -/
theorem lowestKey_of_least {s : State} {k : Nibble} (hk : s.keyDown k = true)
    (hl : ∀ j : Nibble, j.toNat < k.toNat → s.keyDown j = false) : s.lowestKey = some k := by
  cases h : s.lowestKey with
  | none => exact absurd hk (by simp [lowestKey_eq_none h])
  | some j =>
    obtain ⟨h1, h2⟩ := lowestKey_eq_some h
    have hj : ¬ j.toNat < k.toNat := fun h => by simp [hl _ h] at h1
    have hk' : ¬ k.toNat < j.toNat := fun h => by simp [h2 _ h] at hk
    rw [show j = k from BitVec.eq_of_toNat_eq (by omega)]

/-- With no key pressed a poll finds none (R203). -/
theorem lowestKey_of_none {s : State} (h : ∀ k, s.keyDown k = false) : s.lowestKey = none := by
  cases hl : s.lowestKey with
  | none => rfl
  | some j => exact absurd (lowestKey_eq_some hl).1 (by simp [h])

/-- All that a poll can do (R203). -/
theorem keyPoll_cases (s : State) (r : Nibble) :
    (∃ k, s.lowestKey = some k ∧ s.keyPoll r = { s.setReg r (k.zeroExtend 8) with awaiting := false }) ∨
      (s.lowestKey = none ∧ s.keyPoll r = { s with awaiting := true, waitX := r }) := by
  unfold State.keyPoll
  split
  · exact .inl ⟨_, by assumption, rfl⟩
  · exact .inr ⟨by assumption, rfl⟩

/-! ## The framebuffer -/

theorem pixel_of_not_row (fb : Framebuffer) {py : Nat} (px : Nat) (h : ¬ py < 32) : fb.pixel py px = false := by
  simp [Framebuffer.pixel, h]

theorem pixel_eq (fb : Framebuffer) {py : Nat} (px : Nat) (h : py < 32) :
    fb.pixel py px = (fb[py]).getLsbD px := by
  simp [Framebuffer.pixel, h]

/-- A flip changes its one pixel and no other (R192). -/
theorem pixel_flip (fb : Framebuffer) (qy qx py px : Nat) (hy : py < 32) (hx : px < 64) :
    (fb.flip qy qx).pixel py px = (fb.pixel py px ^^ (decide (qy = py) && decide (qx = px))) := by
  rw [pixel_eq _ _ hy, pixel_eq _ _ hy]
  simp only [Framebuffer.flip]
  split
  · simp only [Vector.getElem_set]
    by_cases h : qy = py
    · subst h; simp [hx, eq_comm]
    · simp [h]
  · have : qy ≠ py := by omega
    simp [this]

@[simp] theorem pixel_clear (py px : Nat) : Framebuffer.clear.pixel py px = false := by
  by_cases h : py < 32
  · rw [pixel_eq _ _ h]; simp [Framebuffer.clear]
  · exact pixel_of_not_row _ _ h

/-- One sprite bit through the edge policy: at most one pixel flips, and a collision is a set bit on a set pixel. -/
theorem drawBit_eq (e : SpriteEdge) (bit : Bool) (py px : Nat) (d : Framebuffer × Bool) :
    drawBit e bit py px d = d ∨
      ∃ q, edgePixel e py px = some q ∧ bit = true ∧
        drawBit e bit py px d = (d.1.flip q.1 q.2, d.2 || d.1.pixel q.1 q.2) := by
  unfold drawBit
  split
  · exact .inl rfl
  · cases bit
    · exact .inl rfl
    · exact .inr ⟨_, by assumption, rfl, rfl⟩

/-- No pixel index ever leaves the grid (R192, R193). -/
theorem edgePixel_on_grid {e : SpriteEdge} {py px : Nat} {q : Nat × Nat} (h : edgePixel e py px = some q) :
    q.1 < 32 ∧ q.2 < 64 := by
  cases e <;> simp only [edgePixel] at h
  · split at h
    · exact absurd h (by simp)
    · cases h; simp only; omega
  · cases h; exact ⟨Nat.mod_lt _ (by omega), Nat.mod_lt _ (by omega)⟩

end Sys2Proof.Machine
end

