-- ==== Sys2Proof/Laws/Display.lean ====
section
/-! SUPPORT. What drawing a sprite can do, said once: the pixels it flips, each exactly once, and the collision it
reports (R190, R192). -/

namespace Sys2Proof.Machine

/-- One flip, and whether the pixel was set before it. -/
def flipHit (d : Framebuffer × Bool) (q : Nat × Nat) : Framebuffer × Bool :=
  (d.1.flip q.1 q.2, d.2 || d.1.pixel q.1 q.2)

/-- The pixels that one sprite row flips, in the order of its bits. -/
def rowHits (e : SpriteEdge) (row : Byte) (py x0 : Nat) : List (Nat × Nat) :=
  (List.range 8).filterMap (fun b => if spriteBit row b then edgePixel e py (x0 + b) else none)

/-- The pixels that a whole sprite flips, row by row. -/
def spriteHits (e : SpriteEdge) (py x0 : Nat) : List Byte → List (Nat × Nat)
  | [] => []
  | row :: rows => rowHits e row py x0 ++ spriteHits e (py + 1) x0 rows

theorem drawRow_eq (e : SpriteEdge) (row : Byte) (py x0 : Nat) (d : Framebuffer × Bool) :
    drawRow e row py x0 d = (rowHits e row py x0).foldl flipHit d := by
  unfold drawRow rowHits
  generalize List.range 8 = l
  induction l generalizing d with
  | nil => rfl
  | cons b l ih =>
    rw [List.foldl_cons, ih]
    cases hb : spriteBit row b <;> cases he : edgePixel e py (x0 + b) <;>
      simp [drawBit, flipHit, hb, he]

/-- A draw is the flips of its pixels, one after another. -/
theorem drawRows_eq (e : SpriteEdge) (py x0 : Nat) (rows : List Byte) (d : Framebuffer × Bool) :
    drawRows e py x0 rows d = (spriteHits e py x0 rows).foldl flipHit d := by
  induction rows generalizing py d with
  | nil => rfl
  | cons row rows ih => simp only [drawRows, spriteHits, List.foldl_append, ih, drawRow_eq]

theorem mem_rowHits {e : SpriteEdge} {row : Byte} {py x0 : Nat} {q : Nat × Nat} :
    q ∈ rowHits e row py x0 ↔ ∃ b, b < 8 ∧ spriteBit row b = true ∧ edgePixel e py (x0 + b) = some q := by
  simp only [rowHits, List.mem_filterMap, List.mem_range]
  refine exists_congr fun b => and_congr_right fun _ => ?_
  cases spriteBit row b <;> simp

/-- Which pixels a sprite flips: those its set bits fall on. -/
theorem mem_spriteHits {e : SpriteEdge} {py x0 : Nat} {rows : List Byte} {q : Nat × Nat} :
    q ∈ spriteHits e py x0 rows ↔ ∃ r b row, rows[r]? = some row ∧ b < 8 ∧ spriteBit row b = true ∧
      edgePixel e (py + r) (x0 + b) = some q := by
  induction rows generalizing py with
  | nil => simp [spriteHits]
  | cons row rows ih =>
    rw [spriteHits, List.mem_append, mem_rowHits, ih]
    constructor
    · rintro (⟨b, h⟩ | ⟨r, b, row', hr, h⟩)
      · exact ⟨0, b, row, rfl, h⟩
      · exact ⟨r + 1, b, row', hr, by rwa [show py + (r + 1) = py + 1 + r by omega]⟩
    · rintro ⟨_ | r, b, row', hr, h⟩
      · cases hr; exact .inl ⟨b, h⟩
      · exact .inr ⟨r, b, row', hr, by rwa [show py + (r + 1) = py + 1 + r by omega] at h⟩

/-- Two sprite bits less than a grid apart never fall on one pixel (R192). -/
theorem edgePixel_inj {e : SpriteEdge} {py px py' px' : Nat} {q : Nat × Nat} (h : edgePixel e py px = some q)
    (h' : edgePixel e py' px' = some q) (hy : py ≤ py' + 31 ∧ py' ≤ py + 31) (hx : px ≤ px' + 63 ∧ px' ≤ px + 63) :
    py = py' ∧ px = px' := by
  cases e <;> simp only [edgePixel] at h h'
  · split at h <;> simp only [reduceCtorEq, Option.some.injEq] at h
    split at h' <;> simp only [reduceCtorEq, Option.some.injEq] at h'
    subst h
    simpa [eq_comm] using h'
  · cases h
    simp only [Option.some.injEq, Prod.mk.injEq] at h'
    omega

theorem nodup_rowHits (e : SpriteEdge) (row : Byte) (py x0 : Nat) : (rowHits e row py x0).Nodup := by
  refine List.Pairwise.filterMap _ ?_ (List.Pairwise.and_mem.1 (List.nodup_range : (List.range 8).Nodup))
  rintro b b' ⟨hb, hb', hne⟩ q hq q' hq' rfl
  rw [List.mem_range] at hb hb'
  rw [ite_eq_iff] at hq hq'
  have hq := (hq.resolve_right (by simp)).2
  have hq' := (hq'.resolve_right (by simp)).2
  have := (edgePixel_inj hq hq' (by omega) (by omega)).2
  omega

/-- A sprite of at most 32 rows flips no pixel twice. -/
theorem nodup_spriteHits (e : SpriteEdge) (py x0 : Nat) (rows : List Byte) (h : rows.length ≤ 32) :
    (spriteHits e py x0 rows).Nodup := by
  induction rows generalizing py with
  | nil => exact List.nodup_nil
  | cons row rows ih =>
    rw [List.length_cons] at h
    refine List.nodup_append.2 ⟨nodup_rowHits _ _ _ _, ih _ (by omega), ?_⟩
    rintro q hq q' hq' rfl
    obtain ⟨b, hb, -, hq⟩ := mem_rowHits.1 hq
    obtain ⟨r, b', _, hr, hb', -, hq'⟩ := mem_spriteHits.1 hq'
    obtain ⟨hr, -⟩ := List.getElem?_eq_some_iff.1 hr
    have := (edgePixel_inj hq hq' (by omega) (by omega)).1
    omega

/-- Flips of distinct pixels: those pixels change and no other does, and one of them was set exactly when a collision is
reported. -/
theorem foldl_flipHit (hits : List (Nat × Nat)) (d : Framebuffer × Bool) (hn : hits.Nodup)
    (hg : ∀ q ∈ hits, q.1 < 32 ∧ q.2 < 64) :
    (∀ py px, py < 32 → px < 64 →
      (hits.foldl flipHit d).1.pixel py px = (d.1.pixel py px ^^ decide ((py, px) ∈ hits))) ∧
    (hits.foldl flipHit d).2 = (d.2 || hits.any (fun q => d.1.pixel q.1 q.2)) := by
  induction hits generalizing d with
  | nil => simp
  | cons q hits ih =>
    obtain ⟨hq, hn⟩ := List.nodup_cons.1 hn
    obtain ⟨ih1, ih2⟩ := ih (flipHit d q) hn (fun p hp => hg p (List.mem_cons_of_mem _ hp))
    refine ⟨fun py px hy hx => ?_, ?_⟩
    · rw [List.foldl_cons, ih1 py px hy hx]
      simp only [flipHit, pixel_flip _ _ _ _ _ hy hx, List.mem_cons]
      by_cases h : (py, px) = q
      · subst h; simp [hq]
      · have : (decide (q.1 = py) && decide (q.2 = px)) = false := by
          rw [Bool.and_eq_false_iff, decide_eq_false_iff_not, decide_eq_false_iff_not]
          by_contra hc
          exact h (by rw [not_or, not_not, not_not] at hc; rw [← hc.1, ← hc.2])
        simp [h, this]
    · rw [List.foldl_cons, ih2]
      have : hits.any (fun p => (flipHit d q).1.pixel p.1 p.2) = hits.any (fun p => d.1.pixel p.1 p.2) := by
        rw [Bool.eq_iff_iff, List.any_eq_true, List.any_eq_true]
        refine exists_congr fun p => and_congr_right fun hp => ?_
        obtain ⟨h1, h2⟩ := hg p (List.mem_cons_of_mem _ hp)
        rw [flipHit, pixel_flip _ _ _ _ _ h1 h2]
        have : (decide (q.1 = p.1) && decide (q.2 = p.2)) = false := by
          rw [Bool.and_eq_false_iff, decide_eq_false_iff_not, decide_eq_false_iff_not]
          by_contra hc
          rw [not_or, not_not, not_not] at hc
          exact hq (by rwa [show q = p from Prod.ext hc.1 hc.2])
        simp [this]
      rw [this, List.any_cons, flipHit, Bool.or_assoc]

end Sys2Proof.Machine
end

