-- ==== Sys2Proof/Laws/PerInstr.lean ====
section
/-! SUPPORT. Statements about every instruction as syntax, one lemma per constructor. -/

namespace Sys2Proof.Laws.TableRow

/-- The word of an instruction carries the literal bits of its own row of the opcode map (R100). -/
def Statement (i : Instr) : Prop :=
  ∃ r ∈ opcodeTable, r.name = i.patternName ∧ encode i &&& r.mask = r.pattern

/-- The form W: all 16 bits literal (R94). -/
theorem formW (i : Instr) (r : OpcodeRow) (hr : r ∈ opcodeTable) (hn : r.name = i.patternName)
    (he : encode i &&& r.mask = r.pattern) : Statement i := ⟨r, hr, hn, he⟩

/-- The form NNN: the type literal (R94). -/
theorem formNNN (i : Instr) (t : Nibble) (a : Addr) (hi : encode i = encodeNNN t a)
    (hr : ⟨i.patternName, encodeNNN t 0, 0xF000⟩ ∈ opcodeTable) : Statement i := by
  refine ⟨_, hr, rfl, ?_⟩
  rw [hi, show (0xF000 : Word) = encodeNNN 0xF 0 from rfl, encodeNNN_and]
  simp [nibble_and_15]

/-- The form XKK: the type literal (R94). -/
theorem formXKK (i : Instr) (t x : Nibble) (kk : Byte) (hi : encode i = encodeXKK t x kk)
    (hr : ⟨i.patternName, encodeXKK t 0 0, 0xF000⟩ ∈ opcodeTable) : Statement i := by
  refine ⟨_, hr, rfl, ?_⟩
  rw [hi, show (0xF000 : Word) = encodeXKK 0xF 0 0 from rfl, encodeXKK_and]
  simp [nibble_and_15]

/-- The form XY: the type and the low nibble literal (R94). -/
theorem formXY (i : Instr) (t x y n : Nibble) (hi : encode i = encodeXYN t x y n)
    (hr : ⟨i.patternName, encodeXYN t 0 0 n, 0xF00F⟩ ∈ opcodeTable) : Statement i := by
  refine ⟨_, hr, rfl, ?_⟩
  rw [hi, show (0xF00F : Word) = encodeXYN 0xF 0 0 0xF from rfl, encodeXYN_and]
  simp [nibble_and_15]

/-- The form XYN: the type literal (R94). -/
theorem formXYN (i : Instr) (t x y n : Nibble) (hi : encode i = encodeXYN t x y n)
    (hr : ⟨i.patternName, encodeXYN t 0 0 0, 0xF000⟩ ∈ opcodeTable) : Statement i := by
  refine ⟨_, hr, rfl, ?_⟩
  rw [hi, show (0xF000 : Word) = encodeXYN 0xF 0 0 0 from rfl, encodeXYN_and]
  simp [nibble_and_15]

/-- The form X: the type and the low byte literal (R94). -/
theorem formX (i : Instr) (t x : Nibble) (kk : Byte) (hi : encode i = encodeXKK t x kk)
    (hr : ⟨i.patternName, encodeXKK t 0 kk, 0xF0FF⟩ ∈ opcodeTable) : Statement i := by
  refine ⟨_, hr, rfl, ?_⟩
  rw [hi, show (0xF0FF : Word) = encodeXKK 0xF 0 0xFF from rfl, encodeXKK_and]
  simp [nibble_and_15, byte_and_255]

/-! ## One lemma per constructor, in the order of R100 -/

theorem cls : Statement .cls :=
  formW _ ⟨"00E0", 0x00E0, 0xFFFF⟩ (by decide) rfl rfl

theorem ret : Statement .ret :=
  formW _ ⟨"00EE", 0x00EE, 0xFFFF⟩ (by decide) rfl rfl

theorem sys (nnn : Addr) : Statement (.sys nnn) := formNNN _ 0x0#4 nnn rfl (by simp only [Instr.patternName]; decide)

theorem jp (nnn : Addr) : Statement (.jp nnn) := formNNN _ 0x1#4 nnn rfl (by simp only [Instr.patternName]; decide)

theorem call (nnn : Addr) : Statement (.call nnn) := formNNN _ 0x2#4 nnn rfl (by simp only [Instr.patternName]; decide)

theorem seImm (x : Nibble) (kk : Byte) : Statement (.seImm x kk) :=
  formXKK _ 0x3#4 x kk rfl (by simp only [Instr.patternName]; decide)

theorem sneImm (x : Nibble) (kk : Byte) : Statement (.sneImm x kk) :=
  formXKK _ 0x4#4 x kk rfl (by simp only [Instr.patternName]; decide)

theorem seReg (x y : Nibble) : Statement (.seReg x y) :=
  formXY _ 0x5#4 x y 0x0#4 rfl (by simp only [Instr.patternName]; decide)

theorem ldImm (x : Nibble) (kk : Byte) : Statement (.ldImm x kk) :=
  formXKK _ 0x6#4 x kk rfl (by simp only [Instr.patternName]; decide)

theorem addImm (x : Nibble) (kk : Byte) : Statement (.addImm x kk) :=
  formXKK _ 0x7#4 x kk rfl (by simp only [Instr.patternName]; decide)

theorem ldReg (x y : Nibble) : Statement (.ldReg x y) :=
  formXY _ 0x8#4 x y 0x0#4 rfl (by simp only [Instr.patternName]; decide)

theorem orReg (x y : Nibble) : Statement (.orReg x y) :=
  formXY _ 0x8#4 x y 0x1#4 rfl (by simp only [Instr.patternName]; decide)

theorem andReg (x y : Nibble) : Statement (.andReg x y) :=
  formXY _ 0x8#4 x y 0x2#4 rfl (by simp only [Instr.patternName]; decide)

theorem xorReg (x y : Nibble) : Statement (.xorReg x y) :=
  formXY _ 0x8#4 x y 0x3#4 rfl (by simp only [Instr.patternName]; decide)

theorem addReg (x y : Nibble) : Statement (.addReg x y) :=
  formXY _ 0x8#4 x y 0x4#4 rfl (by simp only [Instr.patternName]; decide)

theorem subReg (x y : Nibble) : Statement (.subReg x y) :=
  formXY _ 0x8#4 x y 0x5#4 rfl (by simp only [Instr.patternName]; decide)

theorem shrReg (x y : Nibble) : Statement (.shrReg x y) :=
  formXY _ 0x8#4 x y 0x6#4 rfl (by simp only [Instr.patternName]; decide)

theorem subnReg (x y : Nibble) : Statement (.subnReg x y) :=
  formXY _ 0x8#4 x y 0x7#4 rfl (by simp only [Instr.patternName]; decide)

theorem shlReg (x y : Nibble) : Statement (.shlReg x y) :=
  formXY _ 0x8#4 x y 0xE#4 rfl (by simp only [Instr.patternName]; decide)

theorem sneReg (x y : Nibble) : Statement (.sneReg x y) :=
  formXY _ 0x9#4 x y 0x0#4 rfl (by simp only [Instr.patternName]; decide)

theorem ldI (nnn : Addr) : Statement (.ldI nnn) := formNNN _ 0xA#4 nnn rfl (by simp only [Instr.patternName]; decide)

theorem jpV0 (nnn : Addr) : Statement (.jpV0 nnn) := formNNN _ 0xB#4 nnn rfl (by simp only [Instr.patternName]; decide)

theorem rnd (x : Nibble) (kk : Byte) : Statement (.rnd x kk) :=
  formXKK _ 0xC#4 x kk rfl (by simp only [Instr.patternName]; decide)

theorem drw (x y n : Nibble) : Statement (.drw x y n) :=
  formXYN _ 0xD#4 x y n rfl (by simp only [Instr.patternName]; decide)

theorem skp (x : Nibble) : Statement (.skp x) :=
  formX _ 0xE#4 x 0x9E#8 rfl (by simp only [Instr.patternName]; decide)

theorem sknp (x : Nibble) : Statement (.sknp x) :=
  formX _ 0xE#4 x 0xA1#8 rfl (by simp only [Instr.patternName]; decide)

theorem ldVxDT (x : Nibble) : Statement (.ldVxDT x) :=
  formX _ 0xF#4 x 0x07#8 rfl (by simp only [Instr.patternName]; decide)

theorem ldVxK (x : Nibble) : Statement (.ldVxK x) :=
  formX _ 0xF#4 x 0x0A#8 rfl (by simp only [Instr.patternName]; decide)

theorem ldDTVx (x : Nibble) : Statement (.ldDTVx x) :=
  formX _ 0xF#4 x 0x15#8 rfl (by simp only [Instr.patternName]; decide)

theorem ldSTVx (x : Nibble) : Statement (.ldSTVx x) :=
  formX _ 0xF#4 x 0x18#8 rfl (by simp only [Instr.patternName]; decide)

theorem addI (x : Nibble) : Statement (.addI x) :=
  formX _ 0xF#4 x 0x1E#8 rfl (by simp only [Instr.patternName]; decide)

theorem ldF (x : Nibble) : Statement (.ldF x) :=
  formX _ 0xF#4 x 0x29#8 rfl (by simp only [Instr.patternName]; decide)

theorem ldB (x : Nibble) : Statement (.ldB x) :=
  formX _ 0xF#4 x 0x33#8 rfl (by simp only [Instr.patternName]; decide)

theorem storeRegs (x : Nibble) : Statement (.storeRegs x) :=
  formX _ 0xF#4 x 0x55#8 rfl (by simp only [Instr.patternName]; decide)

theorem loadRegs (x : Nibble) : Statement (.loadRegs x) :=
  formX _ 0xF#4 x 0x65#8 rfl (by simp only [Instr.patternName]; decide)

end Sys2Proof.Laws.TableRow
end

