-- ==== Sys2Proof/Laws/Step.lean ====
section
/-! SUPPORT. Everything a step can be, said once (R51), and that every instruction answers. -/

namespace Sys2Proof.Machine

/-- All that a step can be (R51): a poll, a failed fetch, an illegal word, or the decoded instruction. -/
theorem step_cases (s : State) :
    (s.awaiting = true ∧ step s = awaitStep s) ∨
      (s.awaiting = false ∧ s.fetch = none ∧ step s = fetchFault s) ∨
      (∃ w, s.awaiting = false ∧ s.fetch = some w ∧ decode w = .error (.invalidOpcode w) ∧
        step s = illegalWord w s.advance) ∨
      (∃ w i, s.awaiting = false ∧ s.fetch = some w ∧ decode w = .ok i ∧ step s = exec i s.advance) := by
  unfold step
  by_cases ha : s.awaiting = true
  · exact .inl ⟨ha, if_pos ha⟩
  simp only [Bool.not_eq_true] at ha
  simp only [ha, Bool.false_eq_true, if_false, false_and, true_and, false_or]
  cases hf : s.fetch with
  | none => exact .inl ⟨rfl, rfl⟩
  | some w =>
    cases hd : decode w with
    | error e => exact .inr (.inl ⟨w, rfl, by rw [decode_error hd] at hd; exact hd, by simp [hd]⟩)
    | ok i => exact .inr (.inr ⟨w, i, rfl, hd, by simp [hd]⟩)

/-- When a fetch succeeds and what it reads (R66, R75). -/
theorem fetch_eq_some {s : State} {w : Word} :
    s.fetch = some w ↔
      s.PC.toNat + 2 ≤ memSize ∧ w = wordOfBytes (s.byteAt s.PC.toNat) (s.byteAt (s.PC.toNat + 1)) := by
  simp only [State.fetch, inBounds, decide_eq_true_eq]
  split <;> simp_all [eq_comm]

theorem fetch_eq_none {s : State} : s.fetch = none ↔ memSize < s.PC.toNat + 2 := by
  simp [State.fetch, inBounds]

/-- At the execute stage the instruction's own address is the one it was fetched from (R25). -/
@[simp] theorem opPC_advance (s : State) : s.advance.opPC = s.PC := by
  simp [State.opPC, State.advance]

/-- The bytes of memory at the execute stage are those at the fetch. -/
@[simp] theorem byteAt_advance (s : State) (a : Nat) : s.advance.byteAt a = s.byteAt a := rfl

theorem fetchable_inBounds (s : State) : s.fetchable.PC.toNat + 2 ≤ memSize := by
  unfold State.fetchable
  split
  next h => simpa [inBounds] using h
  next => simp [memSize]

/-- The placed word is the one the next step fetches (R66). -/
theorem fetch_placeWord (s : State) (w : Word) :
    (s.placeWord w).awaiting = false ∧ (s.placeWord w).fetch = some w := by
  refine ⟨rfl, fetch_eq_some.2 ⟨fetchable_inBounds s, ?_⟩⟩
  have key : ∀ (c : Config) (m : Memory) (a : Nat),
      w = wordOfBytes (Memory.readByte c (Memory.writeBytes c m a [highByte w, lowByte w]) a)
        (Memory.readByte c (Memory.writeBytes c m a [highByte w, lowByte w]) (a + 1)) := by
    intro c m a
    rw [Memory.readByte_writeBytes, Memory.readByte_writeBytes]
    simp
  exact key _ _ _

/-- Every instruction answers a next state, in every state: a fault is a next state too (R229, log 2). -/
theorem exec_next (i : Instr) (s : State) : ∃ t, exec i s = .next t := by
  cases i with
  | ret => simp only [exec, execRet]; split <;> exact ⟨_, rfl⟩
  | call => simp only [exec, execCall]; split <;> exact ⟨_, rfl⟩
  | ldB | storeRegs | loadRegs | drw => exact orOutOfBounds_next _ _ _
  | _ => exact ⟨_, rfl⟩

/-- All that the command `Step(rnd)` does: the step with the byte at hand, and the byte gone after it (R50, log 3). -/
theorem command_step_of_next {s t : State} {rnd : Byte} (h : step { s with rndIn := some rnd } = .next t) :
    command (.step rnd) s = .next { t with rndIn := none } := by
  simp only [command, stepWith, h, mapNext]

end Sys2Proof.Machine
end

