-- ==== Sys2Proof/Tests/Slice0.lean ====
section
/-! SUPPORT. Tests on fixed values, their expected results taken from the spec's encodings (30_encoding.md) and test
vectors (95_test_vectors.md, whose labels the comments cite), and one witness for each obligation with hypotheses. -/

namespace Sys2Proof.Machine

set_option maxRecDepth 8000

/-! ## Well-formed instructions -/

theorem test_wf_sys_not_cls : Instr.wf (.sys 0x0E0) = false := by decide
theorem test_wf_sys_not_ret : Instr.wf (.sys 0x0EE) = false := by decide
theorem test_wf_sys : Instr.wf (.sys 0x0E1) = true := by decide

/-! ## Decoding: every constructor, its word written out from the encoding of its row -/

theorem test_decode_cls : decode 0b0000000011100000 = .ok .cls := by decide
theorem test_decode_ret : decode 0b0000000011101110 = .ok .ret := by decide
theorem test_decode_sys : decode 0b0000000100100011 = .ok (.sys 0x123) := by decide
theorem test_decode_jp : decode 0b0001001000110100 = .ok (.jp 0x234) := by decide
theorem test_decode_call : decode 0b0010001100000000 = .ok (.call 0x300) := by decide
theorem test_decode_seImm : decode 0b0011001100101010 = .ok (.seImm 3 0x2A) := by decide
theorem test_decode_sneImm : decode 0b0100001100101010 = .ok (.sneImm 3 0x2A) := by decide
theorem test_decode_seReg : decode 0b0101000100100000 = .ok (.seReg 1 2) := by decide
theorem test_decode_ldImm : decode 0b0110101000101011 = .ok (.ldImm 0xA 0x2B) := by decide
theorem test_decode_addImm : decode 0b0111000100100000 = .ok (.addImm 1 0x20) := by decide
theorem test_decode_ldReg : decode 0b1000000100100000 = .ok (.ldReg 1 2) := by decide
theorem test_decode_orReg : decode 0b1000000100100001 = .ok (.orReg 1 2) := by decide
theorem test_decode_andReg : decode 0b1000000100100010 = .ok (.andReg 1 2) := by decide
theorem test_decode_xorReg : decode 0b1000000100100011 = .ok (.xorReg 1 2) := by decide
theorem test_decode_addReg : decode 0b1000000100100100 = .ok (.addReg 1 2) := by decide
theorem test_decode_subReg : decode 0b1000000100100101 = .ok (.subReg 1 2) := by decide
theorem test_decode_shrReg : decode 0b1000000100100110 = .ok (.shrReg 1 2) := by decide
theorem test_decode_subnReg : decode 0b1000000100100111 = .ok (.subnReg 1 2) := by decide
theorem test_decode_shlReg : decode 0b1000000100101110 = .ok (.shlReg 1 2) := by decide
theorem test_decode_sneReg : decode 0b1001000100100000 = .ok (.sneReg 1 2) := by decide
theorem test_decode_ldI : decode 0b1010001011110000 = .ok (.ldI 0x2F0) := by decide
theorem test_decode_jpV0 : decode 0b1011001100000000 = .ok (.jpV0 0x300) := by decide
theorem test_decode_rnd : decode 0b1100001100001111 = .ok (.rnd 3 0x0F) := by decide
theorem test_decode_drw : decode 0b1101011110100101 = .ok (.drw 7 0xA 5) := by decide
theorem test_decode_skp : decode 0b1110001010011110 = .ok (.skp 2) := by decide
theorem test_decode_sknp : decode 0b1110001010100001 = .ok (.sknp 2) := by decide
theorem test_decode_ldVxDT : decode 0b1111001100000111 = .ok (.ldVxDT 3) := by decide
theorem test_decode_ldVxK : decode 0b1111001100001010 = .ok (.ldVxK 3) := by decide
theorem test_decode_ldDTVx : decode 0b1111001100010101 = .ok (.ldDTVx 3) := by decide
theorem test_decode_ldSTVx : decode 0b1111001100011000 = .ok (.ldSTVx 3) := by decide
theorem test_decode_addI : decode 0b1111001000011110 = .ok (.addI 2) := by decide
theorem test_decode_ldF : decode 0b1111010000101001 = .ok (.ldF 4) := by decide
theorem test_decode_ldB : decode 0b1111010100110011 = .ok (.ldB 5) := by decide
theorem test_decode_storeRegs : decode 0b1111001001010101 = .ok (.storeRegs 2) := by decide
theorem test_decode_loadRegs : decode 0b1111001001100101 = .ok (.loadRegs 2) := by decide

/-- F8: illegal words the vectors list, one of each kind. -/
theorem test_decode_illegal : [0x800F#16, 0xE19F, 0xF20B, 0x5121, 0x900E].map decode =
    [.error (.invalidOpcode 0x800F), .error (.invalidOpcode 0xE19F), .error (.invalidOpcode 0xF20B),
      .error (.invalidOpcode 0x5121), .error (.invalidOpcode 0x900E)] := by decide

/-- Big-endian, with the bytes after the instruction handed on (R66). -/
theorem test_decode_bytes : decodeBytes [0x61, 0x05, 0x12] = .ok (.ldImm 1 5, [0x12]) := by decide
theorem test_decode_truncated : decodeBytes [0x61] = .error .truncated := by decide
theorem test_decode_tableWord : decodeTableWord 16 0xE09E = some (.skp 0) := by decide

/-! ## One step on a small state -/

/-- What is seen of the state an answer goes on to. -/
def seen {α : Type} (r : Result) (f : State → α) : Option α :=
  match r with
  | .next t => some (f t)
  | .fault _ => none
  | .refused _ => none

/-- The reset state with a word at 0x200, which the next step fetches, and registers set. -/
def start (w : Word) (regs : List (Nibble × Byte)) : State :=
  regs.foldl (fun s p => s.setReg p.1 p.2) (State.reset.storeWord 0x200 w)

/-- One step of `start`, seen through `f`. -/
def run {α : Type} (w : Word) (regs : List (Nibble × Byte)) (f : State → α) : Option α := seen (step (start w regs)) f

/-- A register and VF. -/
def regVF (x : Nibble) (t : State) : Byte × Byte := (t.reg x, t.reg 0xF)

/-- K1, K2. -/
theorem test_ret : seen (step { start 0x00EE [] with SP := 1, stack := [0x0204] }) (fun t => (t.PC, t.SP, t.result)) =
    some (0x0204, 0, none) := by decide
theorem test_ret_empty : run 0x00EE [] (fun t => (t.PC, t.SP, t.result)) =
    some (0x0202, 0, some (.stackUnderflow 0x0200 0x00EE)) := by decide
/-- R122's example, and F9's 0x0000. -/
theorem test_sys : run 0x0123 [] (fun t => (t.PC, t.result)) =
    some (0x0202, some (.unsupportedLegacyOp 0x0200 0x0123)) := by decide
theorem test_sys_zero : seen (step State.reset) (fun t => (t.PC, t.result)) =
    some (0x0202, some (.unsupportedLegacyOp 0x0200 0x0000)) := by decide
/-- K4, K7. -/
theorem test_jp : run 0x1234 [] State.PC = some 0x0234 := by decide
theorem test_jp_odd : run 0x1001 [] State.PC = some 0x0001 := by decide
/-- K12 and K15, in shape: the last free entry, and a full stack. -/
theorem test_call : seen (step { start 0x2300 [] with SP := 15 }) (fun t => (t.PC, t.SP, t.stack[15]?)) =
    some (0x0300, 16, some 0x0202) := by decide
theorem test_call_full : seen (step { start 0x2300 [] with SP := 16 }) (fun t => (t.PC, t.SP, t.result)) =
    some (0x0202, 16, some (.stackOverflow 0x0200 0x2300)) := by decide
/-- K20, K21. -/
theorem test_seImm : run 0x332A [(3, 0x2A)] State.PC = some 0x0204 := by decide
theorem test_seImm_not : run 0x332A [(3, 0x2B)] State.PC = some 0x0202 := by decide
/-- K24, K25. -/
theorem test_sneImm_not : run 0x432A [(3, 0x2A)] State.PC = some 0x0202 := by decide
theorem test_sneImm : run 0x432A [(3, 0x00)] State.PC = some 0x0204 := by decide
/-- K26, K27. -/
theorem test_seReg : run 0x5120 [(1, 7), (2, 7)] State.PC = some 0x0204 := by decide
theorem test_seReg_not : run 0x5120 [(1, 7), (2, 8)] State.PC = some 0x0202 := by decide
/-- K30, K31. -/
theorem test_sneReg : run 0x9120 [(1, 7), (2, 8)] State.PC = some 0x0204 := by decide
theorem test_sneReg_not : run 0x9120 [(1, 7), (2, 7)] State.PC = some 0x0202 := by decide
/-- K40, K41. -/
theorem test_jpV0 : run 0xB300 [(0, 4), (3, 9)] State.PC = some 0x0304 := by decide
theorem test_jpV0_top : run 0xBFFF [(0, 0xFF)] State.PC = some 0x10FE := by decide
/-- A1. -/
theorem test_ldImm : run 0x6A2B [] (fun t => (t.reg 0xA, t.PC)) = some (0x2B, 0x0202) := by decide
/-- A3, A7. -/
theorem test_addImm : run 0x7120 [(1, 0xF0), (0xF, 7)] (regVF 1) = some (0x10, 7) := by decide
theorem test_addImm_vf : run 0x7F05 [(0xF, 1)] (fun t => t.reg 0xF) = some 6 := by decide
/-- A8. -/
theorem test_ldReg : run 0x8120 [(2, 0x5A)] (fun t => (t.reg 1, t.reg 2)) = some (0x5A, 0x5A) := by decide
/-- A10, A11, A12, with VF kept. -/
theorem test_orReg : run 0x8121 [(1, 0xF0), (2, 0x0F), (0xF, 9)] (regVF 1) = some (0xFF, 9) := by decide
theorem test_andReg : run 0x8122 [(1, 0xF3), (2, 0x3C), (0xF, 9)] (regVF 1) = some (0x30, 9) := by decide
theorem test_xorReg : run 0x8123 [(1, 0xFF), (2, 0x0F), (0xF, 9)] (regVF 1) = some (0xF0, 9) := by decide
/-- A19, A24: the carry stays where x is 15. -/
theorem test_addReg : run 0x8124 [(1, 0xFF), (2, 1)] (regVF 1) = some (0, 1) := by decide
theorem test_addReg_vf : run 0x8F14 [(1, 0x10), (0xF, 0xF5)] (fun t => t.reg 0xF) = some 1 := by decide
/-- A32, A36: the comparison is strict, and the difference stays where x is 15. -/
theorem test_subReg : run 0x8125 [(1, 0x33), (2, 0x33), (0xF, 1)] (regVF 1) = some (0, 0) := by decide
theorem test_subReg_vf : run 0x8F15 [(1, 3), (0xF, 0x10)] (fun t => t.reg 0xF) = some 0x0D := by decide
/-- A43, A45. -/
theorem test_shrReg : run 0x8126 [(1, 0xFF)] (regVF 1) = some (0x7F, 1) := by decide
theorem test_shrReg_vf : run 0x8F16 [(0xF, 7)] (fun t => t.reg 0xF) = some 3 := by decide
/-- A50, A54: the operands' order, and y at 15. -/
theorem test_subnReg : run 0x8127 [(1, 0x0A), (2, 0x0F)] (regVF 1) = some (5, 1) := by decide
theorem test_subnReg_vf : run 0x81F7 [(1, 3), (0xF, 0x10)] (regVF 1) = some (0x0D, 1) := by decide
/-- A60, A66: the default source, and SHIFT_SOURCE = vy. -/
theorem test_shlReg : run 0x812E [(1, 0x81)] (regVF 1) = some (2, 1) := by decide
theorem test_shlReg_vy : seen (step { start 0x812E [(1, 5), (2, 0x0F)] with
    cfg := { Config.default with shiftSource := .vy } }) (regVF 1) = some (0x1E, 0) := by decide
/-- A70, A74: the byte of the `Step` command, used by RND alone. -/
theorem test_rnd : seen (stepWith 0xB7 (start 0xC30F [])) (fun t => (t.reg 3, t.rndIn, t.draws)) =
    some (7, none, 0) := by decide
theorem test_rnd_unused : seen (stepWith 0xFF (start 0x6A2B [])) (fun t => (t.reg 0xA, t.rndIn)) =
    some (0x2B, none) := by decide
/-- M1. -/
theorem test_ldI : seen (step { start 0xA2F0 [] with I := 0xFFFF }) State.I = some 0x02F0 := by decide
/-- M3, M6: no mask and no flag, and the wrap at 65536. -/
theorem test_addI : seen (step { start 0xF21E [(2, 2), (0xF, 7)] with I := 0x0FFF }) (fun t => (t.I, t.reg 0xF)) =
    some (0x1001, 7) := by decide
theorem test_addI_wraps : seen (step { start 0xF21E [(2, 0xFF)] with I := 0xFF80 }) State.I = some 0x007F := by decide
/-- M9, M12. -/
theorem test_ldF : run 0xF429 [(4, 0x0A)] State.I = some 0x0082 := by decide
theorem test_ldF_lowNibble : run 0xF429 [(4, 0xFF)] State.I = some 0x009B := by decide
/-- M17, M18: the last address that fits, and one past it. -/
theorem test_ldB : seen (step { start 0xF533 [(5, 0xC7)] with I := 0x0FFD })
    (fun t => (t.byteAt 0xFFD, t.byteAt 0xFFE, t.byteAt 0xFFF, t.result)) = some (1, 9, 9, none) := by decide
theorem test_ldB_out : seen (step { start 0xF533 [(5, 0xC7)] with I := 0x0FFE })
    (fun t => (t.byteAt 0xFFE, t.byteAt 0xFFF, t.PC, t.result)) =
    some (0, 0, 0x0202, some (.outOfBounds 0x0200 0xF533 0x0FFE)) := by decide
/-- M30 and M28: a store over the font, and nothing stored past the end. -/
theorem test_storeRegs : seen (step { start 0xF155 [(0, 0x10), (1, 0x11)] with I := 0x0050 })
    (fun t => (t.byteAt 0x50, t.byteAt 0x51, t.byteAt 0x52, t.I)) = some (0x10, 0x11, 0x90, 0x0050) := by decide
theorem test_storeRegs_out : seen (step { start 0xFF55 [(0, 0x10)] with I := 0x0FF1 })
    (fun t => (t.byteAt 0xFF1, t.result)) = some (0, some (.outOfBounds 0x0200 0xFF55 0x0FF1)) := by decide
/-- F265 of the font's first three bytes, and M39. -/
theorem test_loadRegs : seen (step { start 0xF265 [(3, 0xAA)] with I := 0x0050 })
    (fun t => (t.reg 0, t.reg 1, t.reg 2, t.reg 3, t.I)) = some (0xF0, 0x90, 0x90, 0xAA, 0x0050) := by decide
theorem test_loadRegs_out : seen (step { start 0xF065 [(0, 0xAA)] with I := 0x1000 })
    (fun t => (t.reg 0, t.result)) = some (0xAA, some (.outOfBounds 0x0200 0xF065 0x1000)) := by decide
/-- G19. -/
theorem test_cls : seen (step { start 0x00E0 [(0xF, 7)] with fb := Vector.replicate 32 0xFF })
    (fun t => (t.fb.pixel 0 0, t.fb.pixel 31 7, t.reg 0xF, t.redraw)) = some (false, false, 7, true) := by decide
/-- G5, with the font's first byte F0 in the place of FF: bit 7 leftmost, one collision, its pixel cleared. -/
theorem test_drw : seen (step { start 0xD011 [] with I := 0x0050, fb := Vector.replicate 32 0b1000 })
    (fun t => (t.fb.toList.take 2, t.reg 0xF, t.redraw)) = some ([0b0111, 0b1000], 1, true) := by decide
/-- G13: a sprite past the end of memory changes nothing, with no row to read either. -/
theorem test_drw_out : seen (step { start 0xD010 [(0xF, 9)] with I := 0x1001 })
    (fun t => (t.reg 0xF, t.redraw, t.result)) = some (9, false, some (.outOfBounds 0x0200 0xD010 0x1001)) := by decide
/-- G8, with the font's F0: the one pixel that fits, and the four that wrap. -/
theorem test_drw_edges : (drawSprite .clip 0xFF 0xFF [0xF0] Framebuffer.clear).1[31] = BitVec.twoPow 64 63 ∧
    (drawSprite .wrap 0xFF 0xFF [0xF0] Framebuffer.clear).1[31] = BitVec.twoPow 64 63 ||| 0b111 := by decide
/-- Y3 and Y7. -/
theorem test_skp : seen (step ((start 0xE29E [(2, 0x15)]).doSetKey 5 true)) State.PC = some 0x0204 := by decide
theorem test_sknp : seen (step ((start 0xE2A1 [(2, 0x25)]).doSetKey 5 true)) State.PC = some 0x0202 := by decide
/-- T2. -/
theorem test_ldVxDT : seen (step { start 0xF307 [] with DT := 0x3C }) (fun t => (t.reg 3, t.DT)) =
    some (0x3C, 0x3C) := by decide
/-- Y8 and Y10: the wait entered, and the lowest of the keys down at once. -/
theorem test_ldVxK : run 0xF30A [(3, 0x99)] (fun t => (t.awaiting, t.waitX, t.PC, t.reg 3)) =
    some (true, 3, 0x0202, 0x99) := by decide
theorem test_ldVxK_lowest :
    seen (step (((start 0xF30A [(3, 0x99)]).doSetKey 0xC true).doSetKey 3 true)) (fun t => (t.awaiting, t.reg 3)) =
    some (false, 3) := by decide
/-- T1 and T3. -/
theorem test_ldDTVx : run 0xF315 [(3, 0x3C)] State.DT = some 0x3C := by decide
theorem test_ldSTVx : run 0xF318 [(3, 2)] (fun t => (t.ST, t.beeping)) = some (2, true) := by decide

/-! ## The step and the commands -/

/-- F1, F2 and F4: the last address that can be fetched from, the first that cannot, and the highest reached. -/
theorem test_fetch_last : seen (step ({ State.reset with PC := 0x0FFE }.storeWord 0x0FFE 0x6A2B))
    (fun t => (t.reg 0xA, t.PC)) = some (0x2B, 0x1000) := by decide
theorem test_fetch_past : seen (step { State.reset with PC := 0x0FFF }) (fun t => (t.PC, t.result)) =
    some (0x0FFF, some (.outOfBounds 0x0FFF 0x0000 0x0FFF)) := by decide
/-- F5's second step: an odd address. -/
theorem test_fetch_odd : seen (step ({ State.reset with PC := 0x0203 }.storeWord 0x0203 0x6105))
    (fun t => (t.reg 1, t.PC)) = some (5, 0x0205) := by decide
/-- F6's second step: the font is fetched from like any memory, and 0xF090 is illegal. -/
theorem test_fetch_font : seen (step { State.reset with PC := 0x0050 }) (fun t => (t.PC, t.result)) =
    some (0x0052, some (.invalidOpcode 0x0050 0xF090)) := by decide
/-- Y15: a poll that finds its key. -/
theorem test_await : seen (step { State.reset.doSetKey 7 true with awaiting := true, waitX := 3, PC := 0x0202 })
    (fun t => (t.reg 3, t.awaiting, t.PC, t.keyDown 7)) = some (7, false, 0x0202, true) := by decide
/-- The first step after reset runs the word placed for it (log 5). -/
theorem test_withFetchWord : seen (step (State.reset.withFetchWord 16 0x6A2B)) (fun t => (t.reg 0xA, t.PC)) =
    some (0x2B, 0x0202) := by decide
/-- T5: the second of its ticks. -/
theorem test_tick : seen (command .tick { State.reset with DT := 2, ST := 0 }) (fun t => (t.DT, t.ST)) =
    some (1, 0) := by decide
/-- L4: a second, shorter load leaves the tail of the first. -/
theorem test_load : seen (schedule [.load [1, 2, 3, 4], .load [9, 9]] State.reset)
    (fun t => ((List.range 5).map (fun k => t.byteAt (0x200 + k)), t.PC)) = some ([9, 9, 3, 4, 0], 0x0200) := by decide
/-- L6, L7, L8. -/
theorem test_reset : seen (command .reset { State.reset.setReg 3 0x77 with PC := 0x0234, SP := 3, redraw := true })
    (fun t => (t.reg 3, t.PC, t.SP, t.redraw, t.byteAt 0x50)) = some (0, 0x0200, 0, false, 0xF0) := by decide
theorem test_ackRedraw : seen (command .ackRedraw { State.reset with redraw := true }) State.redrawOut =
    some false := by decide
theorem test_setKey : seen (schedule [.setKey 5 true, .setKey 5 true] State.reset)
    (fun t => (t.keyDown 5, t.keyDown 4)) = some (true, false) := by decide

/-! ## Witnesses: for each obligation with hypotheses, values that meet them all, clause by clause, at the ends of the
ranges -/

theorem witness_DecodeOfEncode : Instr.wf (.sys 0x0E1) = true ∧ Instr.wf (.drw 0xF 0xF 0xF) = true := by decide
theorem witness_EncodeOfDecode : decode 0xF065 = .ok (.loadRegs 0) := by decide

theorem witness_StepRuns : (start 0xF255 []).awaiting = false ∧ (start 0xF255 []).PC.toNat + 2 ≤ 4096 ∧
    decode (start 0xF255 []).wordAtPC = .ok (.storeRegs 2) := by decide

theorem witness_FetchFault : ({ State.reset with PC := 0x0FFF } : State).awaiting = false ∧
    4096 < (0x0FFF : Word).toNat + 2 := by decide

theorem witness_UnfetchablePC : ({ State.reset with PC := 0x10FE } : State).awaiting = false ∧
    4096 < (0x10FE : Word).toNat + 2 ∧ Command.reset ∉ [.load [1], .step 7, .tick, .setKey 3 true, .ackRedraw] := by
  decide

theorem witness_IllegalWord : (start 0x8128 []).awaiting = false ∧ (start 0x8128 []).PC.toNat + 2 ≤ 4096 ∧
    decode (start 0x8128 []).wordAtPC = .error (.invalidOpcode 0x8128) := by decide

/-- Both kinds of fault: of the fetch, and after it. -/
theorem witness_FaultsArePrecise :
    (∃ t f, step { State.reset with PC := 0x0FFF } = .next t ∧ t.result = some f) ∧
    ∃ t f, step State.reset = .next t ∧ t.result = some f :=
  ⟨⟨_, _, rfl, rfl⟩, ⟨_, _, rfl, rfl⟩⟩

/-- Each instruction that can fault. -/
theorem witness_WhichInstruction :
    (∃ t f, exec .ret State.reset = .next t ∧ t.result = some f) ∧
    (∃ t f, exec (.sys 0) State.reset = .next t ∧ t.result = some f) ∧
    (∃ t f, exec (.call 0) { State.reset with SP := 16 } = .next t ∧ t.result = some f) ∧
    (∃ t f, exec (.drw 0 0 0) { State.reset with I := 0x1001 } = .next t ∧ t.result = some f) ∧
    (∃ t f, exec (.ldB 0) { State.reset with I := 0x0FFE } = .next t ∧ t.result = some f) ∧
    (∃ t f, exec (.storeRegs 0) { State.reset with I := 0x1000 } = .next t ∧ t.result = some f) ∧
    (∃ t f, exec (.loadRegs 0xF) { State.reset with I := 0x0FF1 } = .next t ∧ t.result = some f) ∧
    State.reset.result = none :=
  ⟨⟨_, _, rfl, rfl⟩, ⟨_, _, rfl, rfl⟩, ⟨_, _, rfl, rfl⟩, ⟨_, _, rfl, rfl⟩, ⟨_, _, rfl, rfl⟩, ⟨_, _, rfl, rfl⟩,
    ⟨_, _, rfl, rfl⟩, rfl⟩

theorem witness_PCAfter : (start 0xBFFF []).awaiting = false ∧ (start 0xBFFF []).PC.toNat + 2 ≤ 4096 ∧
    decode (start 0xBFFF []).wordAtPC = .ok (.jpV0 0xFFF) ∧
    ({ State.reset with PC := 0x0FFF } : State).awaiting = false ∧ 4096 < (0x0FFF : Word).toNat + 2 := by decide

/-- No key down, and the keys 0 and 15, the ends of the range, as the least. -/
theorem witness_AwaitingStep :
    ({ State.reset with awaiting := true } : State).awaiting = true ∧ (∀ k, State.reset.keyDown k = false) ∧
    (State.reset.doSetKey 0 true).keyDown 0 = true ∧ (State.reset.doSetKey 0xF true).keyDown 0xF = true ∧
    ∀ j : Nibble, j.toNat < (0xF : Nibble).toNat → (State.reset.doSetKey 0xF true).keyDown j = false := by decide

theorem witness_ResetMeets : Config.default.wf := by decide
theorem reset_inv : State.reset.Inv :=
  ⟨by decide, Memory.wf_nil _, by decide, by decide, fun w hw => by rw [List.eq_of_mem_replicate hw]; decide⟩
theorem witness_EveryStep : State.reset.Inv ∧ ∃ t, step State.reset = .next t := ⟨reset_inv, _, rfl⟩

theorem witness_MemoriesAlike : Memory.wf Config.default [(0x300, 5), (0xFFF, 7)] := by decide

theorem witness_BlockWrite : 0xFFD + [(1 : Byte), 9, 9].length ≤ 4096 ∧ 4096 < 0xFFE + [(1 : Byte), 9, 9].length ∧
    [(1 : Byte), 9, 9][2]? = some 9 ∧ State.reset.MemOk := by decide

theorem witness_Load : (List.replicate 3584 (0xAA : Byte)).length ≤ 3584 ∧
    3584 < (List.replicate 3585 (0xBB : Byte)).length ∧ (List.replicate 3584 (0xAA : Byte))[3583]? = some 0xAA := by
  rw [List.length_replicate, List.length_replicate, List.getElem?_replicate]
  exact ⟨Nat.le_refl _, Nat.lt_succ_self _, rfl⟩

theorem witness_SetKey : (0 : Nibble) ≠ 5 := by decide

theorem witness_OnlyRnd : ∀ x kk, Instr.cls ≠ .rnd x kk := by simp

/-- Each writer changes its piece of state. -/
theorem witness_Writers :
    (∃ t, exec (.ldI 5) State.reset = .next t ∧ t.I ≠ State.reset.I) ∧
    (∃ t, exec (.addI 0) (State.reset.setReg 0 1) = .next t ∧ t.I ≠ State.reset.I) ∧
    (∃ t, exec (.ldF 0) State.reset = .next t ∧ t.I ≠ State.reset.I) ∧
    (∃ t, exec (.call 5) State.reset = .next t ∧ t.stack ≠ State.reset.stack ∧ t.SP ≠ State.reset.SP) ∧
    (∃ t, exec (.ldDTVx 0) (State.reset.setReg 0 1) = .next t ∧ t.DT ≠ State.reset.DT) ∧
    (∃ t, exec (.ldSTVx 0) (State.reset.setReg 0 1) = .next t ∧ t.ST ≠ State.reset.ST) ∧
    (∃ t, exec (.storeRegs 0) (State.reset.setReg 0 1) = .next t ∧ t.mem ≠ State.reset.mem) ∧
    (∃ t, exec .cls State.reset = .next t ∧ t.redraw ≠ State.reset.redraw) ∧
    (∃ t, exec .cls { State.reset with fb := Vector.replicate 32 1 } = .next t ∧ t.fb ≠ Vector.replicate 32 1) ∧
    ∃ t, exec (.ldVxK 3) State.reset = .next t ∧ t.awaiting ≠ State.reset.awaiting ∧ t.waitX ≠ State.reset.waitX :=
  ⟨⟨_, rfl, by decide⟩, ⟨_, rfl, by decide⟩, ⟨_, rfl, by decide⟩, ⟨_, rfl, by decide⟩, ⟨_, rfl, by decide⟩,
    ⟨_, rfl, by decide⟩, ⟨_, rfl, by decide⟩, ⟨_, rfl, by decide⟩, ⟨_, rfl, by decide⟩, ⟨_, rfl, by decide⟩⟩

theorem witness_RegisterWriters :
    ∃ t, exec (.addReg 1 2) ((State.reset.setReg 1 0xFF).setReg 2 1) = .next t ∧ t.reg 0xF ≠ 0 := ⟨_, rfl, by decide⟩

theorem witness_Parameters : (∀ x y, Instr.subnReg 1 2 ≠ .shrReg x y ∧ Instr.subnReg 1 2 ≠ .shlReg x y) ∧
    ∀ x y n, Instr.cls ≠ .drw x y n := by simp

theorem witness_Devices : (Instr.ret ≠ .cls ∧ ∀ x y n, Instr.ret ≠ .drw x y n) ∧
    (∀ x, Instr.ret ≠ .skp x ∧ Instr.ret ≠ .sknp x ∧ Instr.ret ≠ .ldVxK x) ∧
    (∀ x, Instr.ret ≠ .ldVxDT x ∧ Instr.ret ≠ .ldDTVx x) ∧ ∀ x, Instr.ret ≠ .ldSTVx x := by simp

/-- x other than 15, and 15, under either SHIFT_SOURCE. -/
theorem witness_Shifts : (1 : Nibble) ≠ 0xF ∧
    (0 : Byte) = (if State.reset.cfg.shiftSource = .vx then State.reset.reg 0xF else State.reset.reg 2) ∧
    (7 : Byte) = (if ShiftSource.vy = .vx then State.reset.reg 0xF else (State.reset.setReg 2 7).reg 2) := by decide

/-- As a meaning, with no byte given and with one, and as a step of the host's, with an all-ones mask. -/
theorem witness_Random : (2 : Nibble) ≠ 1 ∧ State.reset.rndIn = none ∧
    ({ State.reset with rndIn := some 0xB7 } : State).rndIn ≠ none := by decide
theorem witness_Random_step : (start 0xCFFF []).awaiting = false ∧ (start 0xCFFF []).PC.toNat + 2 ≤ 4096 ∧
    decode (start 0xCFFF []).wordAtPC = .ok (.rnd 0xF 0xFF) := by decide

/-- The last free entry, and a full stack. -/
theorem witness_Call : ({ State.reset with SP := 15 } : State).StackOk ∧ 15 < State.reset.cfg.stackDepth ∧
    ({ State.reset with SP := 16 } : State).StackOk ∧ 16 = State.reset.cfg.stackDepth := by decide

theorem witness_Return : (0 < 16 ∧ State.reset.stack[16 - 1]? = some 0x0000) ∧ State.reset.SP = 0 := by decide

theorem witness_NestedCalls : State.reset.StackOk ∧
    State.reset.SP + (List.replicate 16 (0x300 : Addr)).length ≤ State.reset.cfg.stackDepth := by decide

theorem witness_LegacyCall : State.reset.awaiting = false ∧ State.reset.PC.toNat + 2 ≤ 4096 ∧
    fieldType State.reset.wordAtPC = 0x0 ∧ State.reset.wordAtPC ≠ 0x00E0 ∧ State.reset.wordAtPC ≠ 0x00EE := by decide

theorem witness_IndexArithmetic : State.reset.cfg.wf := by decide

/-- The last address that fits, and the first that does not. -/
theorem witness_Decimal : (0x0FFD : Word).toNat + 3 ≤ 4096 ∧ 4096 < (0x0FFE : Word).toNat + 3 := by decide
theorem witness_BlockStore : (0x0FF0 : Word).toNat + ((0xF : Nibble).toNat + 1) ≤ 4096 ∧
    4096 < (0x0FF1 : Word).toNat + ((0xF : Nibble).toNat + 1) ∧ (0xF : Nibble).toNat ≤ (0xF : Nibble).toNat := by decide
theorem witness_BlockLoad : (0x0FFF : Word).toNat + ((0x0 : Nibble).toNat + 1) ≤ 4096 ∧
    4096 < (0x1000 : Word).toNat + ((0x0 : Nibble).toNat + 1) ∧ (0x0 : Nibble).toNat ≤ (0x0 : Nibble).toNat := by decide

theorem witness_StoreThenLoad : ∃ s u : State, s.I.toNat + ((0xF : Nibble).toNat + 1) ≤ 4096 ∧
    ∃ t, exec (.storeRegs 0xF) s = .next t ∧ u.I = t.I ∧ u.mem = t.mem ∧ u.cfg = t.cfg :=
  ⟨{ State.reset with I := 0x0FF0 }, { State.reset with I := 0x0FF0 }, by decide, _, rfl, rfl, by decide, rfl⟩

/-- The store of program P6's form: the two bytes after the instruction. -/
theorem witness_StoreIsSeen : ∃ s : State, s.awaiting = false ∧ s.PC.toNat + 2 ≤ 4096 ∧
    decode s.wordAtPC = .ok (.storeRegs 1) ∧ 1 ≤ (1 : Nibble).toNat ∧ s.I = s.PC + 2 ∧
    s.I.toNat + ((1 : Nibble).toNat + 1) ≤ 4096 := ⟨{ start 0xF155 [] with I := 0x0202 }, by decide⟩

/-- The ends of the range with no row at all, then a covered pixel, that pixel set, and a pixel not covered. -/
theorem witness_Draw : (0x1000 : Word).toNat + (0 : Nibble).toNat ≤ 4096 ∧
    4096 < (0x1001 : Word).toNat + (0 : Nibble).toNat := by decide
theorem witness_Draw_covers : ∃ s : State, s.I.toNat + (1 : Nibble).toNat ≤ 4096 ∧ spriteCovers s 0 1 1 0 0 ∧
    s.pixelOut 0 0 = true :=
  ⟨{ State.reset with I := 0x0050, fb := Vector.replicate 32 1 }, by decide,
    ⟨0, 0, by decide, by decide, by decide, rfl, rfl⟩, by decide⟩
theorem witness_Draw_not_covers : ∀ px py, ¬ spriteCovers State.reset 0 1 0 px py := by
  rintro px py ⟨r, b, hr, -⟩
  simp at hr
theorem witness_DrawTwice : (0 : Nibble) ≠ 0xF ∧ (1 : Nibble) ≠ 0xF ∧
    (0x0050 : Word).toNat + (1 : Nibble).toNat ≤ 4096 ∧ ∀ px py, State.reset.pixelOut px py = false :=
  ⟨by decide, by decide, by decide, fun _ _ => pixel_clear _ _⟩

end Sys2Proof.Machine
end

section
/-! PROOFS. The encoding: the fields of a word as shifts and masks (R92). -/

namespace Sys2Proof

/-- A slice of a word, widened to the word's width, is the word shifted down to the slice and masked to its length:
the two notations R92 gives for a field say the same. -/
theorem zeroExtend_extractLsb' {width : Nat} (w : BitVec width) (start len : Nat) :
    (w.extractLsb' start len).zeroExtend width = (w >>> start) &&& BitVec.ofNat width (2 ^ len - 1) := by
  apply BitVec.eq_of_getLsbD_eq
  intro i hi
  simp only [BitVec.getLsbD_setWidth, BitVec.getLsbD_extractLsb', BitVec.getLsbD_and, BitVec.getLsbD_ushiftRight,
    BitVec.getLsbD_ofNat, Nat.testBit_two_pow_sub_one, hi, decide_true, Bool.true_and]
  exact Bool.and_comm _ _

/-- The top field needs no mask: nothing stands above it. -/
theorem zeroExtend_fieldType (w : Word) : (fieldType w).zeroExtend 16 = w >>> 12 := by
  apply BitVec.eq_of_toNat_eq
  have := w.isLt
  rw [BitVec.toNat_setWidth, toNat_fieldType, BitVec.toNat_ushiftRight, Nat.shiftRight_eq_div_pow]
  omega

/-- A field at the bottom of the word needs no shift. -/
theorem zeroExtend_extractLsb'_zero {width : Nat} (w : BitVec width) (len : Nat) :
    (w.extractLsb' 0 len).zeroExtend width = w &&& BitVec.ofNat width (2 ^ len - 1) := by
  rw [zeroExtend_extractLsb', BitVec.ushiftRight_zero]

theorem toNat_fieldKK_eq_fieldY_fieldN (w : Word) :
    (fieldKK w).toNat = (fieldY w).toNat * 16 + (fieldN w).toNat := by
  rw [toNat_fieldKK, toNat_fieldY, toNat_fieldN]
  omega

theorem toNat_fieldNNN_eq_fieldX_fieldKK (w : Word) :
    (fieldNNN w).toNat = (fieldX w).toNat * 256 + (fieldKK w).toNat := by
  rw [toNat_fieldNNN, toNat_fieldX, toNat_fieldKK]
  omega

/-- Settles O4: each field below the top one is an instance of the slice as shift and mask, and the two sums are
division with remainder of the word as a number. -/
theorem fieldsAreSlicesOfTheWord : Obligations.FieldsAreSlicesOfTheWord := fun w =>
  ⟨zeroExtend_fieldType w,
    zeroExtend_extractLsb'_zero w 12,
    zeroExtend_extractLsb'_zero w 4,
    zeroExtend_extractLsb' w 8 4,
    zeroExtend_extractLsb' w 4 4,
    zeroExtend_extractLsb'_zero w 8,
    toNat_fieldKK_eq_fieldY_fieldN w,
    toNat_fieldNNN_eq_fieldX_fieldKK w⟩

end Sys2Proof
end

section
/-! PROOFS. Control transfer: the register skips and the jumps (40_control_flow.md). -/

namespace Sys2Proof.Machine

/-! ## The register skips (R125 to R128) -/

/-- All that a skip can do (R25, R26), said of the condition its test decides. -/
theorem skipIf_eq_of_iff (s : State) {b : Bool} {p : Prop} [Decidable p] (hb : b = true ↔ p) :
    s.skipIf b = { s with PC := if p then s.PC + 2 else s.PC } := by
  by_cases hp : p
  · rw [hb.2 hp, if_pos hp]; rfl
  · rw [Bool.eq_false_iff.2 (mt hb.1 hp), if_neg hp]; rfl

/-- Settles O38: the four meanings are one skip, each on its own test. -/
theorem skipsAddTwoOnTheirCondition : Obligations.SkipsAddTwoOnTheirCondition := fun _ _ _ s =>
  ⟨congrArg Host.Outcome.next (skipIf_eq_of_iff s beq_iff_eq),
    congrArg Host.Outcome.next (skipIf_eq_of_iff s bne_iff_ne),
    congrArg Host.Outcome.next (skipIf_eq_of_iff s beq_iff_eq),
    congrArg Host.Outcome.next (skipIf_eq_of_iff s bne_iff_ne)⟩

/-! ## The jumps (R123, R131) -/

theorem addr_add_byte_le (nnn : Addr) (b : Byte) : nnn.toNat + b.toNat ≤ 0x10FE := by
  have := nnn.isLt
  have := b.isLt
  omega

/-- The target of `Bnnn` never wraps (R131): the sum of the two numbers fits in 16 bits. -/
theorem toNat_zextAddr_add_zextByte (nnn : Addr) (b : Byte) :
    (zextAddr nnn + zextByte b).toNat = nnn.toNat + b.toNat := by
  have := addr_add_byte_le nnn b
  simp only [zextAddr, zextByte, BitVec.zeroExtend, BitVec.toNat_add, BitVec.toNat_setWidth]
  omega

theorem zextAddr_add_zextByte (nnn : Addr) (b : Byte) :
    zextAddr nnn + zextByte b = BitVec.ofNat 16 (nnn.toNat + b.toNat) := by
  rw [← toNat_zextAddr_add_zextByte, BitVec.ofNat_toNat, BitVec.setWidth_eq]

/-- A fetch fails exactly where the second byte of the word would lie outside memory (R27, R75). -/
theorem fetch_eq_none_iff_le_PC {s : State} : s.fetch = none ↔ 4095 ≤ s.PC.toNat := by
  rw [fetch_eq_none, memSize]
  omega

/-- Settles O39: both jumps are one write of `PC`, and the sum `Bnnn` writes is the sum of the numbers. -/
theorem jumpsGoToTheirTarget : Obligations.JumpsGoToTheirTarget := fun nnn s =>
  ⟨rfl,
    congrArg (fun target => Host.Outcome.next (s.jumpTo target)) (zextAddr_add_zextByte nnn (s.reg 0x0#4)),
    addr_add_byte_le nnn (s.reg 0x0#4),
    fetch_eq_none_iff_le_PC⟩

end Sys2Proof.Machine
end

section
/-! PROOFS. Register load, arithmetic and copy: the instructions whose whole effect is one register write
(41_alu.md). -/

namespace Sys2Proof.Machine

/-! ## The frame of one register write -/

/-- A register write keeps every other register, every byte of memory and every other piece of state (R21). -/
theorem onlyRegs_setReg (s : State) (x : Nibble) (v : Byte) : OnlyRegs (· = x) s (s.setReg x v) :=
  ⟨fun _ hr => reg_setReg_ne s v (Ne.symm hr), fun _ => rfl, rfl⟩

/-- An instruction whose meaning is one register write completes, with that value in the register and nothing else
changed. -/
theorem exists_next_of_exec_eq_setReg {i : Instr} {s : State} {x : Nibble} {v : Byte}
    (h : exec i s = .next (s.setReg x v)) : ∃ t, exec i s = .next t ∧ t.reg x = v ∧ OnlyRegs (· = x) s t :=
  ⟨s.setReg x v, h, reg_setReg_self s x v, onlyRegs_setReg s x v⟩

/-! ## The meanings as register writes (R142 to R144) -/

theorem exec_ldImm (x : Nibble) (kk : Byte) (s : State) : exec (.ldImm x kk) s = .next (s.setReg x kk) := rfl

theorem exec_addImm (x : Nibble) (kk : Byte) (s : State) :
    exec (.addImm x kk) s = .next (s.setReg x (s.reg x + kk)) := rfl

theorem exec_ldReg (x y : Nibble) (s : State) : exec (.ldReg x y) s = .next (s.setReg x (s.reg y)) := rfl

/-- Settles O30: the meaning is the write of `kk`. -/
theorem loadImmediateWritesVx : Obligations.LoadImmediateWritesVx := fun x kk s =>
  exists_next_of_exec_eq_setReg (exec_ldImm x kk s)

/-- Settles O31: the meaning is the write of the sum of two bytes, which as a number is the sum mod 256. -/
theorem addImmediateWraps : Obligations.AddImmediateWraps := fun x kk s => by
  obtain ⟨t, ht, hx, hframe⟩ := exists_next_of_exec_eq_setReg (exec_addImm x kk s)
  exact ⟨t, ht, by rw [hx, BitVec.toNat_add], hframe⟩

/-- Settles O32: the meaning is the write of the old Vy. -/
theorem copyWritesVx : Obligations.CopyWritesVx := fun x y s =>
  exists_next_of_exec_eq_setReg (exec_ldReg x y s)

end Sys2Proof.Machine
end

section
/-! PROOFS. Writing the index register (42_index_memory.md). -/

namespace Sys2Proof.Machine

theorem exec_ldI (nnn : Addr) (s : State) : exec (.ldI nnn) s = .next (s.setI (zextAddr nnn)) := rfl

/-- Widening an address keeps its value, so bits 15 to 12 of the word are 0 (R170). -/
theorem toNat_zextAddr (nnn : Addr) : (zextAddr nnn).toNat = nnn.toNat :=
  BitVec.toNat_setWidth_of_le (by decide)

/-- Settles O44: the meaning is the write of the widened address to `I`. -/
theorem loadIndexWritesI : Obligations.LoadIndexWritesI := fun nnn s =>
  ⟨s.setI (zextAddr nnn), exec_ldI nnn s, toNat_zextAddr nnn, rfl⟩

end Sys2Proof.Machine
end

section
/-! PROOFS. Clearing the display (43_display.md). -/

namespace Sys2Proof.Machine

theorem exec_cls (s : State) : exec .cls s = .next { s with fb := Framebuffer.clear, redraw := true } := rfl

/-- Whatever the rest of the state, a clear framebuffer shows 0 at every output coordinate (R52). -/
theorem pixelOut_of_fb_eq_clear {s : State} (h : s.fb = Framebuffer.clear) (x : BitVec 6) (y : BitVec 5) :
    s.pixelOut x y = false := by
  rw [State.pixelOut, h, pixel_clear]

/-- Settles O51: the meaning writes the clear framebuffer and `redraw`, and those two fields alone. -/
theorem clearZeroesEveryPixel : Obligations.ClearZeroesEveryPixel := fun s =>
  ⟨{ s with fb := Framebuffer.clear, redraw := true }, exec_cls s, pixelOut_of_fb_eq_clear rfl, rfl, rfl⟩

end Sys2Proof.Machine
end

section
/-! PROOFS. The timers: reading the delay timer, setting both, and the beep (44_keypad_timers.md). -/

namespace Sys2Proof.Machine

/-! ## The meanings as one write each (R204 to R206) -/

theorem exec_ldVxDT (x : Nibble) (s : State) : exec (.ldVxDT x) s = .next (s.setReg x s.DT) := rfl

theorem exec_ldDTVx (x : Nibble) (s : State) : exec (.ldDTVx x) s = .next { s with DT := s.reg x } := rfl

theorem exec_ldSTVx (x : Nibble) (s : State) : exec (.ldSTVx x) s = .next { s with ST := s.reg x } := rfl

/-! ## The beep (R29, R52) -/

theorem beeping_iff (s : State) : s.beeping = true ↔ s.ST ≠ 0 := bne_iff_ne

/-- Settles O55: `Fx07` is one register write, `Fx15` and `Fx18` one timer write each, and the beep is the test of
`ST`. -/
theorem timersAreReadAndWritten : Obligations.TimersAreReadAndWritten := fun x s =>
  ⟨exists_next_of_exec_eq_setReg (exec_ldVxDT x s), exec_ldDTVx x s, exec_ldSTVx x s, beeping_iff s⟩

end Sys2Proof.Machine
end

section
/-! PROOFS. Decoding and encoding agree, and the decoder agrees with the opcode map (30_encoding.md). -/

namespace Sys2Proof

/-! ## An encoded instruction is decoded (R90, R100) -/

theorem encodeNNN_inj {t : Nibble} {a b : Addr} (h : encodeNNN t a = encodeNNN t b) : a = b := by
  simpa using congrArg fieldNNN h

/-- The legacy call whose word is neither CLS nor RET is what the decoder reads from it (R105). -/
theorem decodeType0_encodeNNN {nnn : Addr} (h : legacyAddrOk nnn = true) :
    decodeType0 (encodeNNN 0x0#4 nnn) = .sys nnn := by
  simp only [legacyAddrOk, ne_eq, decide_not, Bool.and_eq_true, Bool.not_eq_true', decide_eq_false_iff_not] at h
  have hcls : encodeNNN 0x0#4 nnn ≠ 0x00E0#16 := mt (encodeNNN_inj (b := 0x0E0#12)) h.1
  have hret : encodeNNN 0x0#4 nnn ≠ 0x00EE#16 := mt (encodeNNN_inj (b := 0x0EE#12)) h.2
  rw [decodeType0, if_neg hcls, if_neg hret, fieldNNN_encodeNNN]

theorem decode_encode {i : Instr} (h : i.wf = true) : decode (encode i) = .ok i := by
  cases i with
  | cls | ret => rfl
  | sys nnn => simp [decode, encode, decodeType0_encodeNNN h]
  | _ => simp [decode, encode, decodeType8, decodeTypeE, decodeTypeF]

theorem decodeBytes_encodeBytes {i : Instr} (h : i.wf = true) (rest : List Byte) :
    decodeBytes (encodeBytes i ++ rest) = .ok (i, rest) := by
  rw [encodeBytes, List.cons_append, List.cons_append, decodeBytes_cons, wordOfBytes_highByte_lowByte,
    decode_encode h]
  rfl

/-- Settles O1, by the cases of the instruction: the decoder tests the fields the encoder put in. -/
theorem decodeOfEncodeIsTheInstruction : Obligations.DecodeOfEncodeIsTheInstruction := fun _ h =>
  ⟨decode_encode h, decodeBytes_encodeBytes h⟩

/-! ## A decoded word is encoded (U24) -/

/-- What a decoded instruction keeps of its word. -/
def KeepsWord (w : Word) (r : Except DecodeError Instr) : Prop := ∀ i, r = .ok i → encode i = w ∧ i.wf = true

theorem keepsWord_error (w : Word) (e : DecodeError) : KeepsWord w (.error e) := fun _ h => nomatch h

theorem keepsWord_ok {w : Word} {i : Instr} (he : encode i = w) (hi : i.wf = true) : KeepsWord w (.ok i) := by
  rintro _ ⟨⟩
  exact ⟨he, hi⟩

theorem encodeNNN_of_fieldType {w : Word} {t : Nibble} (h : fieldType w = t) : encodeNNN t (fieldNNN w) = w :=
  h ▸ (word_eq_fieldsNNN w).symm

theorem encodeXKK_of_fieldType {w : Word} {t : Nibble} (h : fieldType w = t) :
    encodeXKK t (fieldX w) (fieldKK w) = w :=
  h ▸ (word_eq_fieldsXKK w).symm

theorem encodeXYN_of_fieldType {w : Word} {t : Nibble} (h : fieldType w = t) :
    encodeXYN t (fieldX w) (fieldY w) (fieldN w) = w :=
  h ▸ (word_eq_fields w).symm

theorem encodeXYN_of_fieldType_fieldN {w : Word} {t n : Nibble} (h : fieldType w = t) (hn : fieldN w = n) :
    encodeXYN t (fieldX w) (fieldY w) n = w :=
  hn ▸ encodeXYN_of_fieldType h

theorem encodeXKK_of_fieldType_fieldKK {w : Word} {t : Nibble} {kk : Byte} (h : fieldType w = t)
    (hk : fieldKK w = kk) : encodeXKK t (fieldX w) kk = w :=
  hk ▸ encodeXKK_of_fieldType h

theorem keepsWord_decodeType0 {w : Word} (h : fieldType w = 0x0#4) : KeepsWord w (.ok (decodeType0 w)) := by
  have hw : encodeNNN 0x0#4 (fieldNNN w) = w := encodeNNN_of_fieldType h
  unfold decodeType0
  split
  next hc => exact keepsWord_ok hc.symm rfl
  next hc =>
    split
    next hr => exact keepsWord_ok hr.symm rfl
    next hr =>
      have hcls : fieldNNN w ≠ 0x0E0#12 := fun e => hc (by rw [← hw, e]; rfl)
      have hret : fieldNNN w ≠ 0x0EE#12 := fun e => hr (by rw [← hw, e]; rfl)
      exact keepsWord_ok hw (by simp [Instr.wf, legacyAddrOk, hcls, hret])

/-- A branch that answers an instruction on a test. -/
theorem keepsWord_ite {w : Word} {c : Prop} [Decidable c] {i : Instr} {r : Except DecodeError Instr}
    (he : c → encode i = w) (hi : i.wf = true) (hr : ¬ c → KeepsWord w r) : KeepsWord w (if c then .ok i else r) :=
  decode_ite (fun hc => keepsWord_ok (he hc) hi) hr

theorem keepsWord_decodeType8 {w : Word} (h : fieldType w = 0x8#4) : KeepsWord w (decodeType8 w) := by
  unfold decodeType8
  repeat' refine keepsWord_ite (encodeXYN_of_fieldType_fieldN h) rfl fun _ => ?_
  exact keepsWord_error w _

theorem keepsWord_decodeTypeE {w : Word} (h : fieldType w = 0xE#4) : KeepsWord w (decodeTypeE w) := by
  unfold decodeTypeE
  repeat' refine keepsWord_ite (encodeXKK_of_fieldType_fieldKK h) rfl fun _ => ?_
  exact keepsWord_error w _

theorem keepsWord_decodeTypeF {w : Word} (h : fieldType w = 0xF#4) : KeepsWord w (decodeTypeF w) := by
  unfold decodeTypeF
  repeat' refine keepsWord_ite (encodeXKK_of_fieldType_fieldKK h) rfl fun _ => ?_
  exact keepsWord_error w _

/-- A branch of the types 5 and 9, whose low nibble selects (D26). -/
theorem keepsWord_of_fieldN {w : Word} {t : Nibble} {i : Instr}
    (he : encode i = encodeXYN t (fieldX w) (fieldY w) 0x0#4) (hi : i.wf = true) (h : fieldType w = t) :
    KeepsWord w (if fieldN w = 0x0#4 then .ok i else .error (.invalidOpcode w)) :=
  keepsWord_ite (fun hn => he.trans (encodeXYN_of_fieldType_fieldN h hn)) hi fun _ => keepsWord_error w _

theorem keepsWord_decode (w : Word) : KeepsWord w (decode w) := by
  unfold decode
  refine decode_ite keepsWord_decodeType0 fun _ => ?_
  refine keepsWord_ite encodeNNN_of_fieldType rfl fun _ => keepsWord_ite encodeNNN_of_fieldType rfl fun _ => ?_
  refine keepsWord_ite encodeXKK_of_fieldType rfl fun _ => keepsWord_ite encodeXKK_of_fieldType rfl fun _ => ?_
  refine decode_ite (keepsWord_of_fieldN rfl rfl) fun _ => ?_
  refine keepsWord_ite encodeXKK_of_fieldType rfl fun _ => keepsWord_ite encodeXKK_of_fieldType rfl fun _ => ?_
  refine decode_ite keepsWord_decodeType8 fun _ => decode_ite (keepsWord_of_fieldN rfl rfl) fun _ => ?_
  refine keepsWord_ite encodeNNN_of_fieldType rfl fun _ => keepsWord_ite encodeNNN_of_fieldType rfl fun _ => ?_
  refine keepsWord_ite encodeXKK_of_fieldType rfl fun _ => keepsWord_ite encodeXYN_of_fieldType rfl fun _ => ?_
  refine decode_ite keepsWord_decodeTypeE fun _ => keepsWord_decodeTypeF ?_
  apply nibble_eq_15 <;> assumption

/-- Settles O2, branch by branch of the decoder: each answers the instruction whose word has the tested fields. -/
theorem encodeOfDecodeIsTheWord : Obligations.EncodeOfDecodeIsTheWord := fun w i h => keepsWord_decode w i h

/-! ## The illegal words (R104, R105) -/

theorem decodeType8_eq_error_iff (w : Word) : decodeType8 w = .error (.invalidOpcode w) ↔
    fieldN w ∈ [0x8#4, 0x9#4, 0xA#4, 0xB#4, 0xC#4, 0xD#4, 0xF#4] := by
  have hN : ∀ n : Nibble, n ∈ [0x8#4, 0x9#4, 0xA#4, 0xB#4, 0xC#4, 0xD#4, 0xF#4] ↔
      ¬ (n = 0x0#4) ∧ ¬ (n = 0x1#4) ∧ ¬ (n = 0x2#4) ∧ ¬ (n = 0x3#4) ∧ ¬ (n = 0x4#4) ∧ ¬ (n = 0x5#4) ∧
      ¬ (n = 0x6#4) ∧ ¬ (n = 0x7#4) ∧ ¬ (n = 0xE#4) := by decide
  rw [hN]
  unfold decodeType8
  split_ifs <;> simp_all

theorem decodeTypeE_eq_error_iff (w : Word) :
    decodeTypeE w = .error (.invalidOpcode w) ↔ fieldKK w ∉ [0x9E#8, 0xA1#8] := by
  unfold decodeTypeE
  split_ifs <;> simp_all

theorem decodeTypeF_eq_error_iff (w : Word) : decodeTypeF w = .error (.invalidOpcode w) ↔
    fieldKK w ∉ [0x07#8, 0x0A#8, 0x15#8, 0x18#8, 0x1E#8, 0x29#8, 0x33#8, 0x55#8, 0x65#8] := by
  unfold decodeTypeF
  split_ifs <;> simp_all

theorem decodeType0_eq_sys_iff (w : Word) :
    decodeType0 w = .sys (fieldNNN w) ↔ w ≠ 0x00E0#16 ∧ w ≠ 0x00EE#16 := by
  unfold decodeType0
  split_ifs <;> simp_all

theorem nibble_cases : ∀ t : Nibble, t = 0x0#4 ∨ t = 0x1#4 ∨ t = 0x2#4 ∨ t = 0x3#4 ∨ t = 0x4#4 ∨ t = 0x5#4 ∨
    t = 0x6#4 ∨ t = 0x7#4 ∨ t = 0x8#4 ∨ t = 0x9#4 ∨ t = 0xA#4 ∨ t = 0xB#4 ∨ t = 0xC#4 ∨ t = 0xD#4 ∨ t = 0xE#4 ∨
    t = 0xF#4 := by decide

theorem decode_eq_error_iff (w : Word) : decode w = .error (.invalidOpcode w) ↔
    (fieldType w = 0x5#4 ∧ fieldN w ≠ 0x0#4) ∨
    (fieldType w = 0x8#4 ∧ fieldN w ∈ [0x8#4, 0x9#4, 0xA#4, 0xB#4, 0xC#4, 0xD#4, 0xF#4]) ∨
    (fieldType w = 0x9#4 ∧ fieldN w ≠ 0x0#4) ∨
    (fieldType w = 0xE#4 ∧ fieldKK w ∉ [0x9E#8, 0xA1#8]) ∨
    (fieldType w = 0xF#4 ∧
      fieldKK w ∉ [0x07#8, 0x0A#8, 0x15#8, 0x18#8, 0x1E#8, 0x29#8, 0x33#8, 0x55#8, 0x65#8]) := by
  rw [← decodeType8_eq_error_iff, ← decodeTypeE_eq_error_iff, ← decodeTypeF_eq_error_iff]
  rcases nibble_cases (fieldType w) with
    h | h | h | h | h | h | h | h | h | h | h | h | h | h | h | h <;> simp [decode, h]

theorem decode_eq_sys_iff (w : Word) : decode w = .ok (.sys (fieldNNN w)) ↔
    fieldType w = 0x0#4 ∧ w ≠ 0x00E0#16 ∧ w ≠ 0x00EE#16 := by
  rw [← decodeType0_eq_sys_iff]
  by_cases h : fieldType w = 0x0#4
  · simp [decode, h]
  refine ⟨fun hd => absurd ?_ h, fun hd => absurd hd.1 h⟩
  rw [← (keepsWord_decode w _ hd).1]
  exact fieldType_encodeNNN _ _

/-- Settles O5: what the tests of R101 leave over is what R104 and R105 list. -/
theorem illegalWordsAreTheListedOnes : Obligations.IllegalWordsAreTheListedOnes := fun w =>
  ⟨decode_eq_error_iff w, decode_eq_sys_iff w⟩

/-- Settles O6: the decoder evaluated on the twelve words. -/
theorem specWordsDecodeAsListed : Obligations.SpecWordsDecodeAsListed := by
  unfold Obligations.SpecWordsDecodeAsListed
  decide

/-! ## The opcode map selects what the decoder answers (R100, R101) -/

/-- The word of every instruction carries the literal bits of its row (R100). -/
theorem encode_matches_row (i : Instr) : Laws.TableRow.Statement i :=
  match i with
  | .cls => Laws.TableRow.cls
  | .ret => Laws.TableRow.ret
  | .sys nnn => Laws.TableRow.sys nnn
  | .jp nnn => Laws.TableRow.jp nnn
  | .call nnn => Laws.TableRow.call nnn
  | .seImm x kk => Laws.TableRow.seImm x kk
  | .sneImm x kk => Laws.TableRow.sneImm x kk
  | .seReg x y => Laws.TableRow.seReg x y
  | .ldImm x kk => Laws.TableRow.ldImm x kk
  | .addImm x kk => Laws.TableRow.addImm x kk
  | .ldReg x y => Laws.TableRow.ldReg x y
  | .orReg x y => Laws.TableRow.orReg x y
  | .andReg x y => Laws.TableRow.andReg x y
  | .xorReg x y => Laws.TableRow.xorReg x y
  | .addReg x y => Laws.TableRow.addReg x y
  | .subReg x y => Laws.TableRow.subReg x y
  | .shrReg x y => Laws.TableRow.shrReg x y
  | .subnReg x y => Laws.TableRow.subnReg x y
  | .shlReg x y => Laws.TableRow.shlReg x y
  | .sneReg x y => Laws.TableRow.sneReg x y
  | .ldI nnn => Laws.TableRow.ldI nnn
  | .jpV0 nnn => Laws.TableRow.jpV0 nnn
  | .rnd x kk => Laws.TableRow.rnd x kk
  | .drw x y n => Laws.TableRow.drw x y n
  | .skp x => Laws.TableRow.skp x
  | .sknp x => Laws.TableRow.sknp x
  | .ldVxDT x => Laws.TableRow.ldVxDT x
  | .ldVxK x => Laws.TableRow.ldVxK x
  | .ldDTVx x => Laws.TableRow.ldDTVx x
  | .ldSTVx x => Laws.TableRow.ldSTVx x
  | .addI x => Laws.TableRow.addI x
  | .ldF x => Laws.TableRow.ldF x
  | .ldB x => Laws.TableRow.ldB x
  | .storeRegs x => Laws.TableRow.storeRegs x
  | .loadRegs x => Laws.TableRow.loadRegs x

/-- Two rows of the map share no word, unless the earlier one is CLS or RET, which stand before `0nnn` (R100). -/
theorem opcodeTable_apart : opcodeTable.Pairwise fun r r' =>
    r.pattern &&& r'.mask = r'.pattern &&& r.mask →
      r.mask = 0xFFFF#16 ∧ (r.pattern = 0x00E0#16 ∨ r.pattern = 0x00EE#16) := by decide

/-- But for the words of CLS and RET, a row that matches a word is the first that does. -/
theorem selectRow_of_match {w : Word} {r : OpcodeRow} (hr : r ∈ opcodeTable) (hm : w &&& r.mask = r.pattern)
    (hcls : w ≠ 0x00E0#16) (hret : w ≠ 0x00EE#16) : selectRow w = some r := by
  obtain ⟨as, bs, htable⟩ := List.append_of_mem hr
  refine List.find?_eq_some_iff_append.2 ⟨by simpa using hm, as, bs, htable, fun a ha => ?_⟩
  have hapart := opcodeTable_apart
  rw [htable, List.pairwise_append] at hapart
  obtain ⟨-, -, hbefore⟩ := hapart
  simp only [Bool.not_eq_true', decide_eq_false_iff_not]
  intro hma
  obtain ⟨hmask, hpat⟩ := hbefore a ha r List.mem_cons_self (by
    rw [← hma, ← hm, BitVec.and_assoc, BitVec.and_comm a.mask, BitVec.and_assoc])
  rw [hmask, show w &&& 0xFFFF#16 = w from BitVec.and_allOnes] at hma
  rw [← hma] at hpat
  exact hpat.elim hcls hret

/-- Which fields the literal bits of a row cover: the type, and the nibble or the byte that selects in its type. -/
theorem opcodeRow_masks : ∀ r ∈ opcodeTable, fieldType r.mask = 0xF#4 ∧
    (fieldType r.pattern ∈ [0x5#4, 0x8#4, 0x9#4] → fieldN r.mask = 0xF#4) ∧
    (fieldType r.pattern ∈ [0xE#4, 0xF#4] → fieldKK r.mask = 0xFF#8) := by decide

theorem decode_pattern_ne_error : ∀ r ∈ opcodeTable, decode r.pattern ≠ .error (.invalidOpcode r.pattern) := by
  decide

theorem fieldType_and (v w : Word) : fieldType (v &&& w) = fieldType v &&& fieldType w := BitVec.extractLsb'_and
theorem fieldN_and (v w : Word) : fieldN (v &&& w) = fieldN v &&& fieldN w := BitVec.extractLsb'_and
theorem fieldKK_and (v w : Word) : fieldKK (v &&& w) = fieldKK v &&& fieldKK w := BitVec.extractLsb'_and

/-- No row matches an illegal word: its pattern would have the same selecting fields, and be illegal too (R104). -/
theorem not_match_of_decode_error {w : Word} (h : decode w = .error (.invalidOpcode w)) {r : OpcodeRow}
    (hr : r ∈ opcodeTable) : w &&& r.mask ≠ r.pattern := by
  intro hm
  obtain ⟨hT, hN, hK⟩ := opcodeRow_masks r hr
  have ht : fieldType r.pattern = fieldType w := by rw [← hm, fieldType_and, hT, nibble_and_15]
  have hn (hs : fieldType w ∈ [0x5#4, 0x8#4, 0x9#4]) : fieldN r.pattern = fieldN w := by
    rw [← hm, fieldN_and, hN (ht ▸ hs), nibble_and_15]
  have hk (hs : fieldType w ∈ [0xE#4, 0xF#4]) : fieldKK r.pattern = fieldKK w := by
    rw [← hm, fieldKK_and, hK (ht ▸ hs), byte_and_255]
  refine decode_pattern_ne_error r hr ((decode_eq_error_iff r.pattern).2 ?_)
  rw [ht]
  rcases (decode_eq_error_iff w).1 h with h | h | h | h | h
  · exact .inl (by rwa [hn (by simp [h.1])])
  · exact .inr (.inl (by rwa [hn (by simp [h.1])]))
  · exact .inr (.inr (.inl (by rwa [hn (by simp [h.1])])))
  · exact .inr (.inr (.inr (.inl (by rwa [hk (by simp [h.1])]))))
  · exact .inr (.inr (.inr (.inr (by rwa [hk (by simp [h.1])]))))

theorem selectRow_of_decode_ok {w : Word} {i : Instr} (h : decode w = .ok i) :
    (selectRow w).map OpcodeRow.name = some i.patternName := by
  by_cases hcls : w = 0x00E0#16
  · subst hcls; cases h; rfl
  by_cases hret : w = 0x00EE#16
  · subst hret; cases h; rfl
  obtain ⟨r, hr, hname, hm⟩ := encode_matches_row i
  rw [(keepsWord_decode w i h).1] at hm
  rw [selectRow_of_match hr hm hcls hret, Option.map_some, hname]

/-- Settles O3: a decoded word matches its instruction's row and no earlier one, an illegal word matches none. -/
theorem decoderFollowsTheOpcodeMap : Obligations.DecoderFollowsTheOpcodeMap := by
  intro w
  cases h : decode w with
  | ok i => exact selectRow_of_decode_ok h
  | error e =>
    rw [decode_error h] at h
    rw [selectRow, List.find?_eq_none.2 fun r hr => by simpa using not_match_of_decode_error h hr, Option.map_none]

end Sys2Proof
end

section
/-! PROOFS. What every instruction does, said once: the fault it raises, or else the fields it writes. -/

namespace Sys2Proof.Machine

/-! ## Block accesses, element by element -/

theorem regsFrom_zero_eq_map (s : State) (n : Nat) :
    s.regsFrom 0 n = (List.range n).map fun k => s.reg (BitVec.ofNat 4 k) := by
  refine List.ext_getElem? fun k => ?_
  by_cases hk : k < n
  · rw [getElem?_regsFrom s 0 n k hk]; simp [hk]
  · rw [List.getElem?_eq_none (by simpa using hk), List.getElem?_eq_none (by simpa using hk)]

theorem readBytes_eq_map (s : State) (a n : Nat) :
    Memory.readBytes s.cfg s.mem a n = (List.range n).map fun k => s.byteAt (a + k) := by
  refine List.ext_getElem? fun k => ?_
  by_cases hk : k < n
  · rw [Memory.getElem?_readBytes _ _ _ _ _ hk]; simp [hk, State.byteAt]
  · rw [List.getElem?_eq_none (by simpa using hk), List.getElem?_eq_none (by simpa using hk)]

/-- The general registers after a block load of V0 to Vx (R177). -/
def loadedRegs (s : State) (x : Nibble) : Vector Byte 16 :=
  Vector.ofFn fun r => if r.val ≤ x.toNat then s.byteAt (s.I.toNat + r.val) else s.V[r]

theorem setRegsFrom_eq (s : State) (i : Nat) (bs : List Byte) :
    s.setRegsFrom i bs = { s with V := (s.setRegsFrom i bs).V } := by
  induction bs generalizing s i with
  | nil => rfl
  | cons b bs ih => exact ih _ _

theorem V_setRegsFrom_readBytes (s : State) (x : Nibble) :
    (s.setRegsFrom 0 (Memory.readBytes s.cfg s.mem s.I.toNat (x.toNat + 1))).V = loadedRegs s x := by
  refine Vector.ext fun r hr => ?_
  have hx : x.toNat < 16 := x.isLt
  have h := reg_setRegsFrom s 0 (Memory.readBytes s.cfg s.mem s.I.toNat (x.toNat + 1)) (BitVec.ofNat 4 r)
    (by simpa using hx)
  have hr4 : r % 16 = r := Nat.mod_eq_of_lt hr
  simp only [State.reg, BitVec.toNat_ofNat, Nat.reducePow, hr4, Nat.zero_le, if_true, Nat.sub_zero] at h
  rw [h, loadedRegs, Vector.getElem_ofFn]
  by_cases hrx : r ≤ x.toNat
  · rw [Memory.getElem?_readBytes _ _ _ _ _ (by omega)]; simp [hrx, State.byteAt]
  · rw [List.getElem?_eq_none (by rw [Memory.length_readBytes]; omega)]; simp [hrx]

/-- A block load, its registers given one by one (R177). -/
theorem setRegsFrom_readBytes (s : State) (x : Nibble) :
    s.setRegsFrom 0 (Memory.readBytes s.cfg s.mem s.I.toNat (x.toNat + 1)) = { s with V := loadedRegs s x } := by
  rw [setRegsFrom_eq, V_setRegsFrom_readBytes]

theorem randomUsed_eq (s : State) : s.randomUsed =
    { s with rndIn := none, draws := if s.rndIn = none then s.draws + 1 else s.draws } := by
  obtain ⟨_, _, _, _, _, _, _, _, _, _, _, _, _, _, _, rndIn, _⟩ := s
  cases rndIn <;> rfl

theorem keyPoll_eq (s : State) (x : Nibble) : s.keyPoll x =
    { s with
      V := s.lowestKey.elim s.V fun k => s.V.set x.toNat (k.zeroExtend 8) x.isLt
      awaiting := s.lowestKey.isNone
      waitX := s.lowestKey.elim x fun _ => s.waitX } := by
  rcases keyPoll_cases s x with ⟨k, hk, h⟩ | ⟨hk, h⟩ <;> rw [h, hk] <;> rfl

/-! ## The fault (R230) -/

/-- The fault of the instruction `i` on an access to `n` bytes from `I`, if it goes past the end of memory (R221). -/
def rangeFault (i : Instr) (s : State) (n : Nat) : Option Fault :=
  if memSize < s.I.toNat + n then some (.outOfBounds s.opPC (encode i) s.I) else none

/-- The fault an instruction raises in a state, if it raises one (R222 to R224, R230). -/
def raised (i : Instr) (s : State) : Option Fault :=
  match i with
  | .ret => if s.SP = 0 then some (.stackUnderflow s.opPC (encode i)) else none
  | .sys _ => some (.unsupportedLegacyOp s.opPC (encode i))
  | .call _ => if s.cfg.stackDepth ≤ s.SP then some (.stackOverflow s.opPC (encode i)) else none
  | .drw _ _ n => rangeFault i s n.toNat
  | .ldB _ => rangeFault i s 3
  | .storeRegs x | .loadRegs x => rangeFault i s (x.toNat + 1)
  | .cls | .jp _ | .seImm _ _ | .sneImm _ _ | .seReg _ _ | .ldImm _ _ | .addImm _ _ | .ldReg _ _ | .orReg _ _
  | .andReg _ _ | .xorReg _ _ | .addReg _ _ | .subReg _ _ | .shrReg _ _ | .subnReg _ _ | .shlReg _ _ | .sneReg _ _
  | .ldI _ | .jpV0 _ | .rnd _ _ | .skp _ | .sknp _ | .ldVxDT _ | .ldVxK _ | .ldDTVx _ | .ldSTVx _ | .addI _
  | .ldF _ => none

/-! ## The effect where no fault is raised -/

/-- The rows a sprite of `n` rows reads from `I` (R192). -/
def spriteRows (s : State) (n : Nibble) : List Byte := (List.range n.toNat).map fun k => s.byteAt (s.I.toNat + k)

/-- The registers V0 to Vx, as a block store takes them (R176). -/
def storedRegs (s : State) (x : Nibble) : List Byte :=
  (List.range (x.toNat + 1)).map fun k => s.reg (BitVec.ofNat 4 k)

/-- The state an instruction leaves where it raises no fault: the fields it writes and what it writes to them. `SYS`
always raises its fault, so its row writes nothing. -/
def effect (i : Instr) (s : State) : State :=
  match i with
  | .cls => { s with fb := Framebuffer.clear, redraw := true }
  | .ret => { s with PC := s.stackTop, SP := s.SP - 1 }
  | .sys _ => s
  | .jp nnn => { s with PC := zextAddr nnn }
  | .call nnn => { s with PC := zextAddr nnn, stack := s.stack.set s.SP s.PC, SP := s.SP + 1 }
  | .seImm x kk => { s with PC := if s.reg x = kk then s.PC + 2 else s.PC }
  | .sneImm x kk => { s with PC := if s.reg x ≠ kk then s.PC + 2 else s.PC }
  | .seReg x y => { s with PC := if s.reg x = s.reg y then s.PC + 2 else s.PC }
  | .sneReg x y => { s with PC := if s.reg x ≠ s.reg y then s.PC + 2 else s.PC }
  | .ldImm x kk => s.setReg x kk
  | .addImm x kk => s.setReg x (s.reg x + kk)
  | .ldReg x y => s.setReg x (s.reg y)
  | .orReg x y => s.setReg x (s.reg x ||| s.reg y)
  | .andReg x y => s.setReg x (s.reg x &&& s.reg y)
  | .xorReg x y => s.setReg x (s.reg x ^^^ s.reg y)
  | .addReg x y => (s.setReg x (s.reg x + s.reg y)).setReg flagReg (carryFlag (s.reg x) (s.reg y))
  | .subReg x y => (s.setReg flagReg (greaterFlag (s.reg x) (s.reg y))).setReg x (s.reg x - s.reg y)
  | .subnReg x y => (s.setReg flagReg (greaterFlag (s.reg y) (s.reg x))).setReg x (s.reg y - s.reg x)
  | .shrReg x y =>
    (s.setReg flagReg (shiftedOutRight (shiftOperand s x y))).setReg x (shiftOperand s x y >>> 1)
  | .shlReg x y =>
    (s.setReg flagReg (shiftedOutLeft (shiftOperand s x y))).setReg x (shiftOperand s x y <<< 1)
  | .ldI nnn => { s with I := zextAddr nnn }
  | .jpV0 nnn => { s with PC := zextAddr nnn + zextByte (s.reg 0x0#4) }
  | .rnd x kk => { s.setReg x (s.randomByte &&& kk) with
      rndIn := none
      draws := if s.rndIn = none then s.draws + 1 else s.draws }
  | .drw x y n => drawWrites x y (spriteRows s n) s
  | .skp x => { s with PC := if s.keyDown (lowNibble (s.reg x)) = true then s.PC + 2 else s.PC }
  | .sknp x => { s with PC := if s.keyDown (lowNibble (s.reg x)) = false then s.PC + 2 else s.PC }
  | .ldVxDT x => s.setReg x s.DT
  | .ldVxK x => { s with
      V := s.lowestKey.elim s.V fun k => s.V.set x.toNat (k.zeroExtend 8) x.isLt
      awaiting := s.lowestKey.isNone
      waitX := s.lowestKey.elim x fun _ => s.waitX }
  | .ldDTVx x => { s with DT := s.reg x }
  | .ldSTVx x => { s with ST := s.reg x }
  | .addI x => { s with I := s.I + zextByte (s.reg x) }
  | .ldF x => { s with I := glyphAddress s.cfg (lowNibble (s.reg x)) }
  | .ldB x => { s with mem := Memory.writeBytes s.cfg s.mem s.I.toNat (decimalDigits (s.reg x)) }
  | .storeRegs x => { s with mem := Memory.writeBytes s.cfg s.mem s.I.toNat (storedRegs s x) }
  | .loadRegs x => { s with V := loadedRegs s x }

/-! ## Every meaning is its fault, or else its effect -/

/-- Where a fault is raised it is taken, and otherwise the effect stands (R228). -/
def faultOr (f : Option Fault) (s t : State) : Result := f.elim (.next t) fun f => takeFault f s

theorem faultOr_ite (c : Prop) [Decidable c] (f : Fault) (s t : State) :
    faultOr (if c then some f else none) s t = if c then takeFault f s else .next t := by
  split <;> rfl

/-- A block read through `I`, as an instruction's whole answer. -/
theorem orOutOfBounds_memRead (i : Instr) (s : State) (n : Nat) (write : List Byte → State) :
    orOutOfBounds i s ((s.memRead (baseAddress s) n).map write) =
      faultOr (rangeFault i s n) s (write (Memory.readBytes s.cfg s.mem s.I.toNat n)) := by
  rw [rangeFault, faultOr_ite, baseAddress]
  split
  next h => rw [memRead_eq_none.2 h]; rfl
  next h => rw [memRead_eq_some.2 ⟨not_lt.1 h, rfl⟩]; rfl

/-- A block write through `I`, as an instruction's whole answer. -/
theorem orOutOfBounds_memWrite (i : Instr) (s : State) (bs : List Byte) :
    orOutOfBounds i s (s.memWrite (baseAddress s) bs) =
      faultOr (rangeFault i s bs.length) s { s with mem := Memory.writeBytes s.cfg s.mem s.I.toNat bs } := by
  rw [rangeFault, faultOr_ite, baseAddress]
  split
  next h => rw [memWrite_eq_none.2 h]; rfl
  next h => rw [memWrite_eq_some.2 ⟨not_lt.1 h, rfl⟩]; rfl

/-- All that an instruction can do, in every state. -/
theorem exec_eq (i : Instr) (s : State) : exec i s = faultOr (raised i s) s (effect i s) := by
  cases i with
  | ret => exact (faultOr_ite _ _ _ _).symm
  | call nnn => simp only [raised, faultOr_ite, exec, execCall, State.stackFull, decide_eq_true_eq]; rfl
  | seImm x kk => exact congrArg Host.Outcome.next (skipIf_eq_of_iff s beq_iff_eq)
  | sneImm x kk => exact congrArg Host.Outcome.next (skipIf_eq_of_iff s bne_iff_ne)
  | seReg x y => exact congrArg Host.Outcome.next (skipIf_eq_of_iff s beq_iff_eq)
  | sneReg x y => exact congrArg Host.Outcome.next (skipIf_eq_of_iff s bne_iff_ne)
  | skp x => exact congrArg Host.Outcome.next (skipIf_eq_of_iff s Iff.rfl)
  | sknp x => exact congrArg Host.Outcome.next (skipIf_eq_of_iff s (by rw [Bool.not_eq_true']))
  | rnd x kk => exact congrArg (fun t => Host.Outcome.next (t.setReg x (s.randomByte &&& kk))) (randomUsed_eq s)
  | ldVxK x => exact congrArg Host.Outcome.next (keyPoll_eq s x)
  | drw x y n => rw [exec, execDrw, orOutOfBounds_memRead, readBytes_eq_map]; rfl
  | ldB x => exact orOutOfBounds_memWrite _ s _
  | storeRegs x =>
    rw [exec, execStoreRegs, orOutOfBounds_memWrite, blockRegs, length_regsFrom, regsFrom_zero_eq_map]; rfl
  | loadRegs x => rw [exec, execLoadRegs, orOutOfBounds_memRead, setRegsFrom_readBytes]; rfl
  | _ => rfl

theorem exec_of_raised_eq_none {i : Instr} {s : State} (h : raised i s = none) : exec i s = .next (effect i s) := by
  rw [exec_eq, h]; rfl

theorem exec_of_raised_eq_some {i : Instr} {s : State} {f : Fault} (h : raised i s = some f) :
    exec i s = .next { s with result := some f } := by
  rw [exec_eq, h]; rfl

/-- The two ways an instruction answers its next state. -/
theorem exec_cases {i : Instr} {s t : State} (h : exec i s = .next t) :
    (∃ f, raised i s = some f ∧ t = { s with result := some f }) ∨ (raised i s = none ∧ t = effect i s) := by
  rw [exec_eq] at h
  cases hr : raised i s with
  | none => rw [hr] at h; exact .inr ⟨rfl, (Host.Outcome.next.inj h).symm⟩
  | some f => rw [hr] at h; exact .inl ⟨f, rfl, (Host.Outcome.next.inj h).symm⟩

theorem rangeFault_eq_none {i : Instr} {s : State} {n : Nat} :
    rangeFault i s n = none ↔ s.I.toNat + n ≤ memSize := by
  simp [rangeFault]

theorem rangeFault_eq_some {i : Instr} {s : State} {n : Nat} {f : Fault} :
    rangeFault i s n = some f ↔ memSize < s.I.toNat + n ∧ f = .outOfBounds s.opPC (encode i) s.I := by
  simp [rangeFault, eq_comm]

/-- No effect touches the answer of a step (log 2). -/
theorem effect_result (i : Instr) (s : State) : (effect i s).result = s.result := by
  cases i <;> simp [effect, drawWrites]

end Sys2Proof.Machine
end

section
/-! PROOFS. The step and its faults (10_state.md section 13, 60_exceptions.md section 2). -/

namespace Sys2Proof.Machine

/-! ## The step, case by case (R51) -/

section Step

variable {s : State}

theorem fetch_of_le (h : s.PC.toNat + 2 ≤ 4096) : s.fetch = some s.wordAtPC := fetch_eq_some.2 ⟨h, rfl⟩

theorem fetch_of_gt (h : 4096 < s.PC.toNat + 2) : s.fetch = none := fetch_eq_none.2 h

theorem step_of_awaiting (ha : s.awaiting = true) : step s = awaitStep s := if_pos ha

theorem step_of_decode_ok {i : Instr} (ha : s.awaiting = false) (hpc : s.PC.toNat + 2 ≤ 4096)
    (hd : decode s.wordAtPC = .ok i) : step s = exec i s.advance := by
  simp [step, ha, fetch_of_le hpc, hd]

theorem step_of_decode_error {e : DecodeError} (ha : s.awaiting = false) (hpc : s.PC.toNat + 2 ≤ 4096)
    (hd : decode s.wordAtPC = .error e) : step s = illegalWord s.wordAtPC s.advance := by
  simp [step, ha, fetch_of_le hpc, hd]

theorem step_of_gt (ha : s.awaiting = false) (hpc : 4096 < s.PC.toNat + 2) :
    step s = .next { s with result := some (.outOfBounds s.PC 0x0000#16 s.PC) } := by
  simp [step, ha, fetch_of_gt hpc, fetchFault, takeFault]

theorem illegalWord_advance (s : State) (w : Word) :
    illegalWord w s.advance = .next { s with PC := s.PC + 2, result := some (.invalidOpcode s.PC w) } := by
  rw [illegalWord, opPC_advance]; rfl

end Step

/-- Every step answers a next state (R229, log 2). -/
theorem step_next (s : State) : ∃ t, step s = .next t := by
  rcases step_cases s with ⟨-, h⟩ | ⟨-, -, h⟩ | ⟨w, -, -, -, h⟩ | ⟨w, i, -, -, -, h⟩
  · exact ⟨_, h⟩
  · exact ⟨_, h⟩
  · exact ⟨_, h⟩
  · exact (exec_next i s.advance).imp fun _ ht => h.trans ht

theorem command_next (c : Command) (s : State) : ∃ t, command c s = .next t := by
  cases c with
  | step rnd =>
    obtain ⟨t, ht⟩ := step_next { s with rndIn := some rnd }
    exact ⟨_, command_step_of_next ht⟩
  | _ => exact ⟨_, rfl⟩

/-- Settles O7: each command `Step(rnd)` is a step with `rnd` at hand, and that step is the decoded meaning. -/
theorem stepRunsTheDecodedInstruction : Obligations.StepRunsTheDecodedInstruction := by
  refine ⟨fun s i ha hpc hd => ⟨step_of_decode_ok ha hpc hd, rfl⟩, fun s rnd => ?_, fun s rnd i ha hpc hd => ?_⟩
  · obtain ⟨t, ht⟩ := step_next { s with rndIn := some rnd }
    exact ⟨t, ht, command_step_of_next ht⟩
  · obtain ⟨t, ht⟩ := exec_next i { s with PC := s.PC + 2, result := none, rndIn := some rnd }
    have hstep := step_of_decode_ok (s := { s with rndIn := some rnd }) ha hpc hd
    exact ⟨t, ht, command_step_of_next (hstep.trans ht)⟩

/-- Settles O8: the second step starts with the same `PC`, and its record is the one that already stands. -/
theorem fetchFaultChangesNothing : Obligations.FetchFaultChangesNothing := fun _ ha hpc =>
  ⟨_, step_of_gt ha hpc, rfl, step_of_gt ha hpc⟩

/-- Settles O10: an illegal word takes its fault in the state after the fetch advance. -/
theorem illegalWordFaultsAfterTheAdvance : Obligations.IllegalWordFaultsAfterTheAdvance := fun _ _ ha hpc hd =>
  (step_of_decode_error ha hpc hd).trans (illegalWord_advance _ _)

/-- Settles O11, by the cases of the step and of the command. -/
theorem everyCommandIsAnswered : Obligations.EveryCommandIsAnswered := ⟨step_next, command_next⟩

/-! ## A poll (R203) -/

theorem keyPoll_of_lowestKey_eq_none {s : State} (x : Nibble) (h : s.lowestKey = none) :
    s.keyPoll x = { s with awaiting := true, waitX := x } := by
  rw [keyPoll_eq, h]; rfl

theorem keyPoll_of_lowestKey_eq_some {s : State} {k : Nibble} (x : Nibble) (h : s.lowestKey = some k) :
    s.keyPoll x = { s.setReg x (k.zeroExtend 8) with awaiting := false } := by
  rw [keyPoll_eq, h]; rfl

/-- Settles O15: the poll finds no key, or the least one that is down. -/
theorem awaitingStepOnlyPolls : Obligations.AwaitingStepOnlyPolls := by
  refine ⟨fun s ha hk => ?_, fun s k ha hk hl => ?_⟩
  · rw [step_of_awaiting ha, awaitStep, keyPoll_of_lowestKey_eq_none _ (lowestKey_of_none hk), ← ha]
  · refine ⟨_, step_of_awaiting ha, ?_⟩
    rw [keyPoll_of_lowestKey_eq_some s.waitX (lowestKey_of_least hk hl)]
    exact ⟨reg_setReg_self s _ _, fun r hr => reg_setReg_ne s _ (Ne.symm hr), rfl⟩

/-! ## Which faults there are (R230) -/

/-- The record of an execute fault names the instruction's address and its word (R226). -/
theorem raised_pc_word {i : Instr} {s : State} {f : Fault} (h : raised i s = some f) :
    f.pc = s.opPC ∧ f.word = encode i := by
  cases i with
  | ret | call | drw | ldB | storeRegs | loadRegs =>
    obtain ⟨-, ⟨⟩⟩ := Option.ite_none_right_eq_some.1 h
    exact ⟨rfl, rfl⟩
  | sys nnn => cases h; exact ⟨rfl, rfl⟩
  | _ => cases h

/-- An instruction that starts with the answer `Ok` ends with a fault only if it raises it. -/
theorem raised_of_exec {i : Instr} {s t : State} {f : Fault} (hs : s.result = none) (h : exec i s = .next t)
    (hf : t.result = some f) : raised i s = some f ∧ t = { s with result := some f } := by
  rcases exec_cases h with ⟨g, hg, rfl⟩ | ⟨-, rfl⟩
  · cases hf; exact ⟨hg, rfl⟩
  · rw [effect_result, hs] at hf; cases hf

/-- Settles O13: the instructions that raise a fault, one by one. -/
theorem whichInstructionRaisesWhat : Obligations.WhichInstructionRaisesWhat := by
  intro i s t f hs h hf
  obtain ⟨hr, -⟩ := raised_of_exec hs h hf
  cases i with
  | ret =>
    obtain ⟨hsp, ⟨⟩⟩ := Option.ite_none_right_eq_some.1 hr
    exact .inl ⟨rfl, hsp, rfl⟩
  | sys nnn => cases hr; exact .inr (.inl ⟨nnn, rfl, rfl⟩)
  | call nnn =>
    obtain ⟨hsp, ⟨⟩⟩ := Option.ite_none_right_eq_some.1 hr
    exact .inr (.inr (.inl ⟨nnn, rfl, hsp, rfl⟩))
  | drw x y n => exact .inr (.inr (.inr (.inl ⟨x, y, n, rfl, rangeFault_eq_some.1 hr⟩)))
  | ldB x => exact .inr (.inr (.inr (.inr (.inl ⟨x, rfl, rangeFault_eq_some.1 hr⟩))))
  | storeRegs x => exact .inr (.inr (.inr (.inr (.inr ⟨x, .inl rfl, rangeFault_eq_some.1 hr⟩))))
  | loadRegs x => exact .inr (.inr (.inr (.inr (.inr ⟨x, .inr rfl, rangeFault_eq_some.1 hr⟩))))
  | _ => cases hr

/-- Settles O12, by the cases of the step: a poll answers no fault, and the other three take theirs. -/
theorem faultsArePrecise : Obligations.FaultsArePrecise := by
  intro s t f h hf
  rcases step_cases s with ⟨-, hs⟩ | ⟨ha, hfetch, hs⟩ | ⟨w, ha, hfetch, hd, hs⟩ | ⟨w, i, ha, hfetch, hd, hs⟩ <;>
    rw [hs] at h
  · cases h; cases hf
  · cases h; cases hf
    exact ⟨ha, .inl ⟨fetch_eq_none.1 hfetch, rfl, rfl⟩⟩
  · obtain ⟨hpc, rfl⟩ := fetch_eq_some.1 hfetch
    rw [illegalWord_advance] at h
    cases h; cases hf
    exact ⟨ha, .inr ⟨hpc, rfl, rfl, rfl⟩⟩
  · obtain ⟨hpc, rfl⟩ := fetch_eq_some.1 hfetch
    obtain ⟨hr, rfl⟩ := raised_of_exec (advance_result s) h hf
    obtain ⟨hfpc, hfword⟩ := raised_pc_word hr
    exact ⟨ha, .inr ⟨hpc, by rw [hfpc, opPC_advance], by rw [hfword, (keepsWord_decode _ i hd).1]; rfl, rfl⟩⟩

/-! ## `PC` after a step (R26) -/

theorem toNat_pcAfter_jpV0 (nnn : Addr) (s : State) :
    (pcAfter (.jpV0 nnn) s).toNat = nnn.toNat + (s.reg 0x0#4).toNat := by
  have := addr_add_byte_le nnn (s.reg 0x0#4)
  rw [pcAfter, BitVec.toNat_ofNat, Nat.mod_eq_of_lt (by omega)]

theorem word_add_two_add_two (w : Word) : w + 2 + 2 = w + 4 := BitVec.add_assoc w 2 2

/-- Where an instruction fetched at `s.PC` leaves `PC` if it raises no fault (R26). -/
theorem effect_advance_PC {i : Instr} {s : State} (h : raised i s.advance = none) :
    (effect i s.advance).PC = pcAfter i s := by
  cases i with
  | sys nnn => cases h
  | seImm x kk | sneImm x kk => exact if_congr Iff.rfl (word_add_two_add_two s.PC) rfl
  | seReg x y | sneReg x y => exact if_congr Iff.rfl (word_add_two_add_two s.PC) rfl
  | skp x => exact if_congr (by rw [lowNibble_eq]; rfl) (word_add_two_add_two s.PC) rfl
  | sknp x =>
    simp only [effect, pcAfter, ← lowNibble_eq, ← Bool.not_eq_true, ite_not]
    exact if_congr Iff.rfl rfl (word_add_two_add_two s.PC)
  | jpV0 nnn => exact zextAddr_add_zextByte nnn (s.reg 0x0#4)
  | _ => rfl

/-- Settles O14: a fault leaves the fetch advance, every other answer the row of R26. -/
theorem pcAfterEachInstruction : Obligations.PCAfterEachInstruction := by
  refine ⟨fun s i ha hpc hd => ?_, fun s ha hpc => ⟨_, step_of_gt ha hpc, rfl⟩, toNat_pcAfter_jpV0⟩
  rw [step_of_decode_ok ha hpc hd]
  cases hr : raised i s.advance with
  | none =>
    refine ⟨_, exec_of_raised_eq_none hr, fun _ => effect_advance_PC hr, fun hne => ?_⟩
    exact absurd (effect_result i s.advance) hne
  | some f => exact ⟨_, exec_of_raised_eq_some hr, nofun, fun _ => rfl⟩

end Sys2Proof.Machine
end

section
/-! PROOFS. What instructions write and what they read: the writers of each piece of state, and noninterference. -/

namespace Sys2Proof.Machine

/-! ## The writers of each piece of state (R21 to R34) -/

section Writers

variable {i : Instr} {s : State}

theorem effect_cfg (i : Instr) (s : State) : (effect i s).cfg = s.cfg := by cases i <;> simp [effect, drawWrites]

theorem effect_key (i : Instr) (s : State) : (effect i s).key = s.key := by cases i <;> simp [effect, drawWrites]

theorem writer_I (h : (effect i s).I ≠ s.I) : (∃ nnn, i = .ldI nnn) ∨ (∃ x, i = .addI x) ∨ ∃ x, i = .ldF x := by
  cases i with
  | ldI nnn => exact .inl ⟨nnn, rfl⟩
  | addI x => exact .inr (.inl ⟨x, rfl⟩)
  | ldF x => exact .inr (.inr ⟨x, rfl⟩)
  | _ => simp [effect, drawWrites] at h

theorem writer_stack (h : (effect i s).stack ≠ s.stack) : ∃ nnn, i = .call nnn := by
  cases i with
  | call nnn => exact ⟨nnn, rfl⟩
  | _ => simp [effect, drawWrites] at h

theorem writer_SP (h : (effect i s).SP ≠ s.SP) : (∃ nnn, i = .call nnn) ∨ i = .ret := by
  cases i with
  | call nnn => exact .inl ⟨nnn, rfl⟩
  | ret => exact .inr rfl
  | _ => simp [effect, drawWrites] at h

theorem writer_DT (h : (effect i s).DT ≠ s.DT) : ∃ x, i = .ldDTVx x := by
  cases i with
  | ldDTVx x => exact ⟨x, rfl⟩
  | _ => simp [effect, drawWrites] at h

theorem writer_ST (h : (effect i s).ST ≠ s.ST) : ∃ x, i = .ldSTVx x := by
  cases i with
  | ldSTVx x => exact ⟨x, rfl⟩
  | _ => simp [effect, drawWrites] at h

theorem writer_mem (h : (effect i s).mem ≠ s.mem) : ∃ x, i = .ldB x ∨ i = .storeRegs x := by
  cases i with
  | ldB x => exact ⟨x, .inl rfl⟩
  | storeRegs x => exact ⟨x, .inr rfl⟩
  | _ => simp [effect, drawWrites] at h

theorem writer_fb (h : (effect i s).fb ≠ s.fb) : i = .cls ∨ ∃ x y n, i = .drw x y n := by
  cases i with
  | cls => exact .inl rfl
  | drw x y n => exact .inr ⟨x, y, n, rfl⟩
  | _ => simp [effect] at h

theorem writer_redraw (h : (effect i s).redraw ≠ s.redraw) :
    (effect i s).redraw = true ∧ (i = .cls ∨ ∃ x y n, i = .drw x y n) := by
  cases i with
  | cls => exact ⟨rfl, .inl rfl⟩
  | drw x y n => exact ⟨rfl, .inr ⟨x, y, n, rfl⟩⟩
  | _ => simp [effect] at h

theorem writer_awaiting (h : (effect i s).awaiting ≠ s.awaiting ∨ (effect i s).waitX ≠ s.waitX) :
    ∃ x, i = .ldVxK x := by
  cases i with
  | ldVxK x => exact ⟨x, rfl⟩
  | _ => simp [effect, drawWrites] at h

end Writers

/-- Settles O26: a fault writes none of these fields, an effect only those its instruction may write. -/
theorem stateChangesOnlyByItsWriters : Obligations.StateChangesOnlyByItsWriters := by
  intro i s t h
  rcases exec_cases h with ⟨f, -, rfl⟩ | ⟨-, rfl⟩
  · simp
  · exact ⟨effect_cfg i s, effect_key i s, writer_I, writer_stack, writer_SP, writer_DT, writer_ST, writer_mem,
      writer_fb, writer_redraw, writer_awaiting⟩

/-! ## The writers of each general register (R22, R23) -/

theorem eq_of_reg_setReg_ne {s t : State} {x r : Nibble} {v : Byte} (hV : t.V = (s.setReg x v).V)
    (h : t.reg r ≠ s.reg r) : r = x := by
  by_contra hr
  exact h ((reg_congr hV r).trans (reg_setReg_ne s v (Ne.symm hr)))

theorem eq_or_eq_of_reg_setReg_ne {s t : State} {x y r : Nibble} {v w : Byte}
    (hV : t.V = ((s.setReg x v).setReg y w).V) (h : t.reg r ≠ s.reg r) : r = x ∨ r = y := by
  by_contra hr
  obtain ⟨hx, hy⟩ := not_or.1 hr
  exact h (((reg_congr hV r).trans (reg_setReg_ne _ w (Ne.symm hy))).trans (reg_setReg_ne s v (Ne.symm hx)))

/-- A register after a block load of V0 to Vx (R177). -/
theorem reg_effect_loadRegs (x : Nibble) (s : State) (r : Nibble) : (effect (.loadRegs x) s).reg r =
    if r.toNat ≤ x.toNat then s.byteAt (s.I.toNat + r.toNat) else s.reg r := by
  simp [State.reg, effect, loadedRegs]

theorem mayWrite_of_effect {i : Instr} {s : State} {r : Nibble} (h : (effect i s).reg r ≠ s.reg r) : mayWrite i r := by
  cases i with
  | ldImm | addImm | ldReg | orReg | andReg | xorReg | rnd | ldVxDT => exact eq_of_reg_setReg_ne rfl h
  | ldVxK x =>
    cases hk : s.lowestKey with
    | none => exact absurd (reg_congr (by simp [effect, hk]) r) h
    | some k => exact eq_of_reg_setReg_ne (v := k.zeroExtend 8) (by simp [effect, hk]) h
  | addReg => exact eq_or_eq_of_reg_setReg_ne rfl h
  | subReg | shrReg | subnReg | shlReg => exact (eq_or_eq_of_reg_setReg_ne rfl h).symm
  | drw => exact eq_of_reg_setReg_ne rfl h
  | loadRegs x =>
    by_contra hr
    exact h ((reg_effect_loadRegs x s r).trans (if_neg hr))
  | _ => simp [effect, State.reg] at h

/-- Settles O27: a fault writes no register, an effect only those the access table lists for it. -/
theorem registersChangeOnlyByTheirWriters : Obligations.RegistersChangeOnlyByTheirWriters := by
  intro i s t r h hne
  rcases exec_cases h with ⟨f, -, rfl⟩ | ⟨-, rfl⟩
  · exact absurd rfl hne
  · exact mayWrite_of_effect hne

/-! ## Noninterference: what an instruction does not read -/

/-- An instruction does the same after a change `g` of the state, if `g` changes neither the fault it raises nor what
its effect writes, and leaves the answer of a step alone. -/
theorem exec_comm {i : Instr} {s : State} (g : State → State) (hr : raised i (g s) = raised i s)
    (he : effect i (g s) = g (effect i s)) (hg : ∀ f, { g s with result := some f } = g { s with result := some f }) :
    exec i (g s) = mapNext g (exec i s) := by
  rw [exec_eq, exec_eq, hr, he]
  cases raised i s with
  | none => rfl
  | some f => exact congrArg Host.Outcome.next (hg f)

/-- Memory is written the same under parameters with the same reset contents. -/
theorem writeBytes_congr {c d : Config} (h : ∀ a, c.resetByte a = d.resetByte a) (m : Memory) (a : Nat)
    (bs : List Byte) : Memory.writeBytes c m a bs = Memory.writeBytes d m a bs := by
  induction bs generalizing m a with
  | nil => rfl
  | cons b bs ih => rw [Memory.writeBytes, Memory.writeBytes, Memory.writeByte, Memory.writeByte, h, ih]

theorem effect_storeRegs_cfg {s : State} {c : Config} (x : Nibble) (h : ∀ a, c.resetByte a = s.cfg.resetByte a) :
    effect (.storeRegs x) { s with cfg := c } = { effect (.storeRegs x) s with cfg := c } :=
  congrArg (fun m => { s with mem := m, cfg := c }) (writeBytes_congr h _ _ _)

/-- Settles O25: the random byte and the count of draws stand in the effect of `Cxkk` alone. -/
theorem onlyRndUsesTheRandomByte : Obligations.OnlyRndUsesTheRandomByte := by
  intro i s r d hi
  refine exec_comm (fun t => { t with rndIn := r, draws := d }) ?_ ?_ fun _ => rfl
  · cases i <;> rfl
  · cases i with
    | rnd x kk => exact absurd rfl (hi x kk)
    | _ => rfl

/-- Settles O28: SHIFT_SOURCE stands in the operand of the two shifts alone, SPRITE_EDGE in the draw alone. -/
theorem parametersReachOnlyTheirInstructions : Obligations.ParametersReachOnlyTheirInstructions := by
  refine ⟨fun i s v hi => ?_, fun i s e hi => ?_⟩
  · refine exec_comm (fun t => { t with cfg := { t.cfg with shiftSource := v } }) ?_ ?_ fun _ => rfl
    · cases i <;> rfl
    · cases i with
      | shrReg x y => exact absurd rfl (hi x y).1
      | shlReg x y => exact absurd rfl (hi x y).2
      | storeRegs x => exact effect_storeRegs_cfg x fun _ => rfl
      | _ => rfl
  · refine exec_comm (fun t => { t with cfg := { t.cfg with spriteEdge := e } }) ?_ ?_ fun _ => rfl
    · cases i <;> rfl
    · cases i with
      | drw x y n => exact absurd rfl (hi x y n)
      | storeRegs x => exact effect_storeRegs_cfg x fun _ => rfl
      | _ => rfl

/-- Settles O29: each device stands in the effects of its own instructions alone. -/
theorem devicesReachedOnlyByTheirInstructions : Obligations.DevicesReachedOnlyByTheirInstructions := by
  refine ⟨fun i s g hcls hdrw => ?_, fun i s k hi => ?_, fun i s d hi => ?_, fun i s d hi => ?_⟩
  · refine exec_comm (fun t => { t with fb := g }) ?_ ?_ fun _ => rfl
    · cases i <;> rfl
    · cases i with
      | cls => exact absurd rfl hcls
      | drw x y n => exact absurd rfl (hdrw x y n)
      | _ => rfl
  · refine exec_comm (fun t => { t with key := k }) ?_ ?_ fun _ => rfl
    · cases i <;> rfl
    · cases i with
      | skp x => exact absurd rfl (hi x).1
      | sknp x => exact absurd rfl (hi x).2.1
      | ldVxK x => exact absurd rfl (hi x).2.2
      | _ => rfl
  · refine exec_comm (fun t => { t with DT := d }) ?_ ?_ fun _ => rfl
    · cases i <;> rfl
    · cases i with
      | ldVxDT x => exact absurd rfl (hi x).1
      | ldDTVx x => exact absurd rfl (hi x).2
      | _ => rfl
  · refine exec_comm (fun t => { t with ST := d }) ?_ ?_ fun _ => rfl
    · cases i <;> rfl
    · cases i with
      | ldSTVx x => exact absurd rfl (hi x)
      | _ => rfl

end Sys2Proof.Machine
end

section
/-! PROOFS. Memory: its canonical form, and the block write (20_memory.md). -/

namespace Sys2Proof.Machine

/-! ## The canonical form is canonical (log 9) -/

/-- In a rising list an address is named at most once, by the cell that is found for it. -/
theorem Memory.find_eq_some_iff_mem {m : Memory} (h : m.Pairwise fun p q => p.1 < q.1) (a : Nat) (b : Byte) :
    Memory.find m a = some b ↔ (a, b) ∈ m := by
  induction m with
  | nil => simp [Memory.find]
  | cons p m ih =>
    obtain ⟨k, v⟩ := p
    obtain ⟨hk, hm⟩ := List.pairwise_cons.1 h
    rw [Memory.find, List.mem_cons, Prod.mk.injEq]
    by_cases hka : k = a
    · have hnot : (a, b) ∉ m := fun hp => absurd (hk _ hp) (by simp [hka])
      simp [hka, hnot, eq_comm]
    · simp [hka, Ne.symm hka, ih hm]

/-- A canonical memory lists exactly the bytes that differ from the reset contents. -/
theorem Memory.find_eq_some_iff_readByte {c : Config} {m : Memory} (h : Memory.wf c m) (a : Nat) (b : Byte) :
    Memory.find m a = some b ↔ a < memSize ∧ Memory.readByte c m a = b ∧ b ≠ c.resetByte a := by
  have hcell := Memory.find_eq_some_iff_mem h.1 a
  rw [Memory.readByte]
  cases hf : Memory.find m a with
  | none => simp [eq_comm]
  | some v =>
    obtain ⟨ha, hv⟩ := h.2 (a, v) ((hcell v).1 hf)
    rw [Option.getD_some, Option.some.injEq]
    exact ⟨fun e => ⟨ha, e, e ▸ hv⟩, fun e => e.2.1⟩

theorem Memory.eq_of_find_eq {m m' : Memory} (h : m.Pairwise fun p q => p.1 < q.1)
    (h' : m'.Pairwise fun p q => p.1 < q.1) (hf : ∀ a b, Memory.find m a = some b ↔ Memory.find m' a = some b) :
    m = m' := by
  have : Std.Antisymm fun p q : Host.Cell => p.1 < q.1 := ⟨fun _ _ hpq hqp => absurd hqp (lt_asymm hpq)⟩
  have : Std.Irrefl fun p q : Host.Cell => p.1 < q.1 := ⟨fun p => lt_irrefl p.1⟩
  refine h.eq_of_mem_iff h' fun p => ?_
  rw [← Memory.find_eq_some_iff_mem h, ← Memory.find_eq_some_iff_mem h', hf]

/-- Settles O19: the cells of a canonical memory are determined by what it reads as, and their order by their
addresses. -/
theorem memoriesThatReadAlikeAreEqual : Obligations.MemoriesThatReadAlikeAreEqual := by
  intro c m m' h h' hread
  refine Memory.eq_of_find_eq h.1 h'.1 fun a b => ?_
  rw [Memory.find_eq_some_iff_readByte h, Memory.find_eq_some_iff_readByte h']
  exact and_congr_right fun ha => by rw [hread a ha]

/-! ## The block write (R63, R64) -/

section BlockWrite

variable {s t : State} {a : Nat} {bs : List Byte}

theorem memWrite_of_le (s : State) (h : a + bs.length ≤ memSize) :
    s.memWrite a bs = some { s with mem := Memory.writeBytes s.cfg s.mem a bs } := memWrite_eq_some.2 ⟨h, rfl⟩

theorem byteAt_of_memWrite_inside (h : s.memWrite a bs = some t) {k : Nat} {b : Byte} (hb : bs[k]? = some b) :
    t.byteAt (a + k) = b := by
  rw [byteAt_of_memWrite h, if_pos (Nat.le_add_right a k), Nat.add_sub_cancel_left, hb, Option.getD_some]

theorem onlyBytes_of_memWrite (h : s.memWrite a bs = some t) : OnlyBytes a bs.length s t := by
  refine ⟨fun k hk => ?_, (memWrite_eq_some.1 h).2 ▸ rfl⟩
  rw [byteAt_of_memWrite h]
  split
  · rw [List.getElem?_eq_none (by omega), Option.getD_none]
  · rfl

theorem memRead_of_memWrite (h : s.memWrite a bs = some t) : t.memRead a bs.length = some bs := by
  refine memRead_eq_some.2 ⟨(memWrite_eq_some.1 h).1, List.ext_getElem? fun k => ?_⟩
  by_cases hk : k < bs.length
  · rw [Memory.getElem?_readBytes _ _ _ _ _ hk, List.getElem?_eq_getElem hk]
    exact congrArg some (byteAt_of_memWrite_inside h (List.getElem?_eq_getElem hk)).symm
  · rw [List.getElem?_eq_none (not_lt.1 hk), List.getElem?_eq_none (by simpa using hk)]

end BlockWrite

/-- Settles O20: inside memory the write is one update of `mem`, past its end both accesses fail. -/
theorem blockWriteThenRead : Obligations.BlockWriteThenRead := by
  refine fun s a bs => ⟨fun hle => ?_, fun hgt => ⟨memWrite_eq_none.2 hgt, memRead_eq_none.2 hgt⟩⟩
  have h := memWrite_of_le s hle
  exact ⟨_, h, onlyBytes_of_memWrite h, memOk_of_memWrite h, fun _ _ => byteAt_of_memWrite_inside h,
    memRead_of_memWrite h⟩

end Sys2Proof.Machine
end

section
/-! PROOFS. The host's commands (60_exceptions.md sections 6 and 7, 70_reset_and_hazards.md). -/

namespace Sys2Proof.Machine

/-! ## Load (R70) -/

theorem command_load_of_le (s : State) {bytes : List Byte} (h : bytes.length ≤ 3584) :
    ∃ t, s.memWrite progBase bytes = some t ∧ command (.load bytes) s = .next { t with result := none } := by
  have hw := memWrite_of_le s (by unfold progBase memSize; omega : progBase + bytes.length ≤ memSize)
  exact ⟨_, hw, by rw [command, State.doLoad, hw]⟩

theorem command_load_of_gt (s : State) {bytes : List Byte} (h : 3584 < bytes.length) :
    command (.load bytes) s = .next { s with result := some (.outOfBounds s.PC 0x0000#16 0x0200#16) } := by
  have hw : s.memWrite progBase bytes = none := memWrite_eq_none.2 (by unfold progBase memSize; omega)
  rw [command, State.doLoad, hw]

/-- Settles O23: `Load` is the block write from 0x200. -/
theorem loadCopiesVerbatim : Obligations.LoadCopiesVerbatim := by
  refine fun s bytes => ⟨fun hle => ?_, command_load_of_gt s⟩
  obtain ⟨t, hw, hc⟩ := command_load_of_le s hle
  obtain ⟨hout, hframe⟩ := onlyBytes_of_memWrite hw
  exact ⟨_, hc, by rw [hframe], fun k b => byteAt_of_memWrite_inside hw, hout⟩

/-! ## Tick (R240) -/

theorem toNat_countDown (t : Byte) : (countDown t).toNat = t.toNat - 1 := by
  unfold countDown
  split
  next h => exact BitVec.toNat_sub_of_le (BitVec.le_def.2 h)
  next h => omega

theorem schedule_cons_of_next {c : Command} {cs : List Command} {s t : State} (h : command c s = .next t) :
    schedule (c :: cs) s = schedule cs t := by
  simp only [schedule, h]

/-- Settles O22, by induction on the number of ticks. -/
theorem ticksCountBothTimersDown : Obligations.TicksCountBothTimersDown := by
  intro n
  induction n with
  | zero => exact fun s => ⟨s, rfl, rfl, rfl, rfl⟩
  | succ n ih =>
    intro s
    obtain ⟨t, ht, hDT, hST, hframe⟩ := ih s.doTick
    refine ⟨t, (schedule_cons_of_next rfl).trans ht, ?_, ?_, by rw [hframe]; rfl⟩
    · rw [hDT, doTick_DT, toNat_countDown]; omega
    · rw [hST, doTick_ST, toNat_countDown]; omega

/-! ## SetKey and AckRedraw (R242, R243) -/

theorem keyDown_doSetKey (s : State) (k j : Nibble) (b : Bool) :
    (s.doSetKey k b).keyDown j = if k = j then b else s.keyDown j := by
  simp only [State.keyDown, doSetKey_key, Vector.getElem_set, BitVec.toNat_inj]

/-- Settles O24: each command is one field update. -/
theorem setKeyAndAckRedraw : Obligations.SetKeyAndAckRedraw := by
  refine ⟨fun s k b => ⟨s.doSetKey k b, rfl, ?_, fun j hj => ?_, rfl⟩, fun s => rfl⟩
  · rw [keyDown_doSetKey, if_pos rfl]
  · rw [keyDown_doSetKey, if_neg (Ne.symm hj)]

/-! ## Reset (R260, R261) -/

theorem resetByte_font (c : Config) {i : Nat} (h : i < 80) : c.resetByte (c.fontBase.toNat + i) = c.fontData[i] := by
  simp [Config.resetByte, h]

theorem resetByte_outside_font (c : Config) {a : Nat} (h : a < c.fontBase.toNat ∨ c.fontBase.toNat + 80 ≤ a) :
    c.resetByte a = 0 := by
  rw [Config.resetByte]
  split
  · rw [Vector.getElem?_eq_none (by omega), Option.getD_none]
  · rfl

/-- The start state, whatever the count of free bytes drawn before (log 3). -/
theorem isResetState_resetWith (c : Config) (d : Nat) : IsResetState c { State.resetWith c with draws := d } := by
  refine ⟨rfl, rfl, rfl, rfl, rfl, rfl, rfl, rfl, rfl, rfl, fun r => ?_, fun k => ?_,
    pixelOut_of_fb_eq_clear rfl, rfl, fun i => resetByte_font c, fun a => resetByte_outside_font c⟩
  · simp [State.reg, State.resetWith]
  · simp [State.keyDown, State.resetWith]

/-- Settles O21: both are the start state, under the state's own parameters and under the default ones. -/
theorem resetGivesTheStartState : Obligations.ResetGivesTheStartState :=
  ⟨fun s => ⟨s.doReset, rfl, isResetState_resetWith s.cfg s.draws⟩, isResetState_resetWith Config.default 0⟩

end Sys2Proof.Machine
end

section
/-! PROOFS. What every run keeps: the invariant, and a `PC` that cannot be fetched from (10_state.md, 60_exceptions.md
section 2). -/

namespace Sys2Proof.Machine

/-! ## The invariant speaks of five fields -/

theorem inv_congr {s t : State} (hcfg : t.cfg = s.cfg) (hmem : t.mem = s.mem) (hstack : t.stack = s.stack)
    (hSP : t.SP = s.SP) (hPC : t.PC = s.PC) (h : s.Inv) : t.Inv := by
  rw [State.Inv, State.MemOk, State.StackOk, State.ControlOk, hcfg, hmem, hstack, hSP, hPC]
  exact h

/-! ## Reset meets it (R261) -/

theorem inv_resetWith {c : Config} (h : c.wf) : (State.resetWith c).Inv := by
  refine ⟨h, Memory.wf_nil c, ⟨List.length_replicate, Nat.zero_le _⟩, (by decide : (0x0200#16).toNat ≤ 0x10FE),
    fun w hw => ?_⟩
  rw [List.eq_of_mem_replicate hw]
  decide

/-- Settles O16: reset memory lists nothing, the stack holds zeros, `PC` is 0x200. -/
theorem resetMeetsTheInvariant : Obligations.ResetMeetsTheInvariant := ⟨fun _ => inv_resetWith, reset_inv⟩

/-! ## Every effect keeps it -/

section Effect

variable {i : Instr} {s : State}

theorem effect_memOk (hr : raised i s = none) (h : s.MemOk) : (effect i s).MemOk := by
  rw [State.MemOk, effect_cfg]
  by_cases hm : (effect i s).mem = s.mem
  · rw [hm]; exact h
  · obtain ⟨x, rfl | rfl⟩ := writer_mem hm
    · exact Memory.wf_writeBytes _ h (rangeFault_eq_none.1 hr)
    · exact Memory.wf_writeBytes _ h (by simpa [storedRegs] using rangeFault_eq_none.1 hr)

theorem effect_stackOk (hr : raised i s = none) (h : s.StackOk) : (effect i s).StackOk := by
  obtain ⟨hlen, hSP⟩ := h
  cases i with
  | call nnn =>
    have hroom : s.SP < s.cfg.stackDepth := not_le.1 fun hfull => by simp [raised, hfull] at hr
    exact ⟨List.length_set.trans hlen, hroom⟩
  | ret => exact ⟨hlen, (Nat.sub_le _ _).trans hSP⟩
  | _ => simp [State.StackOk, effect, drawWrites, hlen, hSP]

theorem stackTop_le (h : ∀ w ∈ s.stack, w.toNat ≤ 4096) : s.stackTop.toNat ≤ 4096 := by
  rw [State.stackTop, List.getD_eq_getElem?_getD]
  cases hw : s.stack[s.SP - 1]? with
  | none => simp
  | some w => exact h w (List.mem_of_getElem? hw)

/-- The fetch advance of an address in memory does not wrap (R25). -/
theorem toNat_add_two {w : Word} (h : w.toNat ≤ 4096) : (w + 2).toNat = w.toNat + 2 :=
  (BitVec.toNat_add w 2).trans (Nat.mod_eq_of_lt (Nat.add_lt_of_lt_sub (h.trans_lt (by decide))))

/-- A skip from the address after an instruction stays in the reach of control (R27). -/
theorem skipped_PC_le {w : Word} (h : w.toNat ≤ 4096) {c : Prop} [Decidable c] :
    (if c then w + 2 else w).toNat ≤ 0x10FE := by
  split
  · rw [toNat_add_two h]; omega
  · omega

theorem toNat_zextAddr_le (nnn : Addr) : (zextAddr nnn).toNat ≤ 0x10FE := by
  have := nnn.isLt
  rw [toNat_zextAddr]
  omega

theorem effect_PC_le (hPC : s.PC.toNat ≤ 4096) (hstack : ∀ w ∈ s.stack, w.toNat ≤ 4096) :
    (effect i s).PC.toNat ≤ 0x10FE := by
  cases i with
  | ret => exact (stackTop_le hstack).trans (by decide)
  | jp nnn | call nnn => exact toNat_zextAddr_le nnn
  | jpV0 nnn => exact (toNat_zextAddr_add_zextByte nnn _).trans_le (addr_add_byte_le nnn _)
  | seImm | sneImm | seReg | sneReg | skp | sknp => exact skipped_PC_le hPC
  | _ => simp only [effect, drawWrites, setReg_PC, setVF_eq_setReg]; omega

theorem effect_stack_le (hPC : s.PC.toNat ≤ 4096) (hstack : ∀ w ∈ s.stack, w.toNat ≤ 4096) :
    ∀ w ∈ (effect i s).stack, w.toNat ≤ 4096 := by
  by_cases hs : (effect i s).stack = s.stack
  · rw [hs]; exact hstack
  · obtain ⟨nnn, rfl⟩ := writer_stack hs
    intro w hw
    rcases List.mem_or_eq_of_mem_set hw with hw | rfl
    · exact hstack w hw
    · exact hPC

/-- Every instruction keeps the invariant where it starts right after its fetch advance, at most at 4096 (R25, R27). -/
theorem exec_inv {t : State} (h : s.Inv) (hPC : s.PC.toNat ≤ 4096) (ht : exec i s = .next t) : t.Inv := by
  rcases exec_cases ht with ⟨f, -, rfl⟩ | ⟨hr, rfl⟩
  · exact h
  · obtain ⟨hcfg, hmem, hstackOk, -, hstack⟩ := h
    exact ⟨effect_cfg i s ▸ hcfg, effect_memOk hr hmem, effect_stackOk hr hstackOk, effect_PC_le hPC hstack,
      effect_stack_le hPC hstack⟩

end Effect

/-! ## Every step and every command keeps it -/

theorem advance_PC_le {s : State} {w : Word} (h : s.fetch = some w) : s.advance.PC.toNat ≤ 4096 := by
  obtain ⟨hPC, -⟩ := fetch_eq_some.1 h
  rw [memSize] at hPC
  rw [advance_PC, toNat_add_two (by omega)]
  exact hPC

theorem inv_advance {s : State} {w : Word} (hf : s.fetch = some w) (h : s.Inv) : s.advance.Inv := by
  obtain ⟨hcfg, hmem, hstackOk, -, hstack⟩ := h
  exact ⟨hcfg, hmem, hstackOk, (advance_PC_le hf).trans (by decide), hstack⟩

theorem step_inv {s t : State} (h : s.Inv) (ht : step s = .next t) : t.Inv := by
  rcases step_cases s with ⟨-, hs⟩ | ⟨-, -, hs⟩ | ⟨w, -, hf, -, hs⟩ | ⟨w, i, -, hf, -, hs⟩ <;> rw [hs] at ht
  · cases ht
    exact inv_congr (keyPoll_cfg s _) (keyPoll_mem s _) (keyPoll_stack s _) (keyPoll_SP s _) (keyPoll_PC s _) h
  · cases ht; exact h
  · cases ht; exact inv_advance hf h
  · exact exec_inv (inv_advance hf h) (advance_PC_le hf) ht

/-- Settles O17, by the cases of the step. -/
theorem everyStepKeepsTheInvariant : Obligations.EveryStepKeepsTheInvariant := fun _ _ => step_inv

/-- What `Load` does to the state around memory (R70). -/
theorem doLoad_cases (s : State) (bytes : List Byte) :
    (∃ t, s.memWrite progBase bytes = some t ∧ s.doLoad bytes = { t with result := none }) ∨
      ∃ f, s.doLoad bytes = { s with result := some f } := by
  unfold State.doLoad
  split
  next t ht => exact .inl ⟨t, ht, rfl⟩
  next => exact .inr ⟨_, rfl⟩

theorem doLoad_inv {s : State} (bytes : List Byte) (h : s.Inv) : (s.doLoad bytes).Inv := by
  obtain ⟨hcfg, hmem, hstack, hcontrol⟩ := h
  rcases doLoad_cases s bytes with ⟨t, ht, heq⟩ | ⟨f, heq⟩ <;> rw [heq]
  · obtain ⟨-, rfl⟩ := memWrite_eq_some.1 ht
    have hok := memOk_of_memWrite ht hmem
    exact ⟨hcfg, hok, hstack, hcontrol⟩
  · exact ⟨hcfg, hmem, hstack, hcontrol⟩

theorem command_inv (c : Command) {s : State} (h : s.Inv) : ∃ t, command c s = .next t ∧ t.Inv := by
  cases c with
  | reset => exact ⟨_, rfl, inv_congr (s := State.resetWith s.cfg) rfl rfl rfl rfl rfl (inv_resetWith h.1)⟩
  | load bytes => exact ⟨_, rfl, doLoad_inv bytes h⟩
  | step rnd =>
    obtain ⟨t, ht⟩ := step_next { s with rndIn := some rnd }
    have hinv : t.Inv := step_inv (s := { s with rndIn := some rnd }) h ht
    exact ⟨_, command_step_of_next ht, hinv⟩
  | tick | setKey | ackRedraw => exact ⟨_, rfl, h⟩

/-! ## Schedules -/

/-- What every command of a schedule keeps, the schedule keeps (R50, log 10). -/
theorem schedule_keeps {P : State → Prop} (cs : List Command)
    (hP : ∀ c ∈ cs, ∀ s, P s → ∃ t, command c s = .next t ∧ P t) (s : State) (h : P s) :
    ∃ t, schedule cs s = .next t ∧ P t := by
  induction cs generalizing s with
  | nil => exact ⟨s, rfl, h⟩
  | cons c cs ih =>
    obtain ⟨t, ht, hPt⟩ := hP c List.mem_cons_self s h
    rw [schedule_cons_of_next ht]
    exact ih (fun c hc => hP c (List.mem_cons_of_mem _ hc)) t hPt

/-- Settles O18, by induction on the schedule. -/
theorem everyScheduleKeepsTheInvariant : Obligations.EveryScheduleKeepsTheInvariant := fun cs s h =>
  schedule_keeps cs (fun c _ _ => command_inv c) s h

/-- A core whose `PC` is `pc`, and which awaits no key. -/
def RestsAt (pc : Word) (s : State) : Prop := s.PC = pc ∧ s.awaiting = false

theorem doLoad_restsAt {pc : Word} {s : State} (bytes : List Byte) (h : RestsAt pc s) :
    RestsAt pc (s.doLoad bytes) := by
  rcases doLoad_cases s bytes with ⟨t, ht, heq⟩ | ⟨f, heq⟩ <;> rw [heq]
  · obtain ⟨-, rfl⟩ := memWrite_eq_some.1 ht
    exact h
  · exact h

/-- No command but `Reset` moves a `PC` that cannot be fetched from (D6). -/
theorem command_restsAt {pc : Word} (hpc : 4096 < pc.toNat + 2) {c : Command} (hc : c ≠ .reset) {s : State}
    (h : RestsAt pc s) : ∃ t, command c s = .next t ∧ RestsAt pc t := by
  cases c with
  | reset => exact absurd rfl hc
  | load bytes => exact ⟨_, rfl, doLoad_restsAt bytes h⟩
  | step rnd =>
    have hstep := step_of_gt (s := { s with rndIn := some rnd }) h.2 (by rw [h.1]; exact hpc)
    exact ⟨_, command_step_of_next hstep, h⟩
  | tick | setKey | ackRedraw => exact ⟨_, rfl, h⟩

/-- Settles O9, by induction on the schedule: the failed fetch changes nothing but the answer. -/
theorem unfetchablePCStaysUntilReset : Obligations.UnfetchablePCStaysUntilReset := fun cs s ha hpc hreset =>
  schedule_keeps cs (fun _ hc _ => command_restsAt hpc fun heq => hreset (heq ▸ hc)) s ⟨rfl, ha⟩

end Sys2Proof.Machine
end

section
/-! PROOFS. Arithmetic, logic, shifts and the random byte (41_alu.md). -/

namespace Sys2Proof.Machine

/-! ## Logic: one register write (R145 to R147) -/

theorem exec_orReg (x y : Nibble) (s : State) : exec (.orReg x y) s = .next (s.setReg x (s.reg x ||| s.reg y)) := rfl

theorem exec_andReg (x y : Nibble) (s : State) :
    exec (.andReg x y) s = .next (s.setReg x (s.reg x &&& s.reg y)) := rfl

theorem exec_xorReg (x y : Nibble) (s : State) :
    exec (.xorReg x y) s = .next (s.setReg x (s.reg x ^^^ s.reg y)) := rfl

/-- Settles O33: each meaning is one register write. -/
theorem logicWritesVx : Obligations.LogicWritesVx := fun x y s =>
  ⟨exists_next_of_exec_eq_setReg (exec_orReg x y s), exists_next_of_exec_eq_setReg (exec_andReg x y s),
    exists_next_of_exec_eq_setReg (exec_xorReg x y s)⟩

/-! ## A flag and a result: two register writes (R140) -/

/-- Two register writes keep every other register, every byte of memory and every other piece of state. -/
theorem onlyRegs_setReg_setReg (s : State) (x y : Nibble) (v w : Byte) :
    OnlyRegs (fun r => r = x ∨ r = y) s ((s.setReg x v).setReg y w) := by
  refine ⟨fun r hr => ?_, fun _ => rfl, rfl⟩
  obtain ⟨hx, hy⟩ := not_or.1 hr
  rw [reg_setReg_ne _ w (Ne.symm hy), reg_setReg_ne _ v (Ne.symm hx)]

/-- An instruction that writes a flag and then its result completes: the result stands in Vx, the flag in VF where x is
not 15, and nothing else changes (D14). -/
theorem exists_next_of_flag_then_result {i : Instr} {s : State} {x : Nibble} {flag v : Byte}
    (h : exec i s = .next ((s.setVF flag).setReg x v)) :
    ∃ t, exec i s = .next t ∧ t.reg x = v ∧ (x ≠ 0xF#4 → t.reg 0xF#4 = flag) ∧
      OnlyRegs (fun r => r = x ∨ r = 0xF#4) s t := by
  refine ⟨_, h, reg_setReg_self _ x v, fun hx => ?_, ?_⟩
  · rw [reg_setReg_ne _ v hx]
    exact reg_setReg_self s flagReg flag
  · simp only [or_comm (b := _ = 0xF#4)]
    exact onlyRegs_setReg_setReg s flagReg x flag v

theorem exec_addReg (x y : Nibble) (s : State) : exec (.addReg x y) s =
    .next ((s.setReg x (s.reg x + s.reg y)).setVF (carryFlag (s.reg x) (s.reg y))) := rfl

theorem exec_subReg (x y : Nibble) (s : State) : exec (.subReg x y) s =
    .next ((s.setVF (greaterFlag (s.reg x) (s.reg y))).setReg x (s.reg x - s.reg y)) := rfl

theorem exec_subnReg (x y : Nibble) (s : State) : exec (.subnReg x y) s =
    .next ((s.setVF (greaterFlag (s.reg y) (s.reg x))).setReg x (s.reg y - s.reg x)) := rfl

theorem exec_shrReg (x y : Nibble) (s : State) : exec (.shrReg x y) s =
    .next ((s.setVF (shiftedOutRight (shiftOperand s x y))).setReg x (shiftOperand s x y >>> 1)) := rfl

theorem exec_shlReg (x y : Nibble) (s : State) : exec (.shlReg x y) s =
    .next ((s.setVF (shiftedOutLeft (shiftOperand s x y))).setReg x (shiftOperand s x y <<< 1)) := rfl

theorem carryFlag_eq (a b : Byte) : carryFlag a b = if 255 < a.toNat + b.toNat then 1 else 0 := by
  simp [carryFlag, flagByte_eq]

theorem greaterFlag_eq (a b : Byte) : greaterFlag a b = if b.toNat < a.toNat then 1 else 0 := by
  simp [greaterFlag, flagByte_eq]

/-- Settles O34: the sum is written first, the carry last. -/
theorem addRegistersSetsCarry : Obligations.AddRegistersSetsCarry := by
  refine fun x y s => ⟨_, exec_addReg x y s, ?_, fun hx => ?_, onlyRegs_setReg_setReg s x flagReg _ _⟩
  · exact (reg_setReg_self _ flagReg _).trans (carryFlag_eq _ _)
  · rw [setVF_eq_setReg, reg_setReg_ne (x := flagReg) _ _ (Ne.symm hx), reg_setReg_self, BitVec.toNat_add]

theorem toNat_byte_sub (a b : Byte) : (a - b).toNat = (a.toNat + 256 - b.toNat) % 256 := by
  have := b.isLt
  rw [BitVec.toNat_sub]
  omega

/-- Settles O35: the strict comparison is written first, the difference last. -/
theorem subtractSetsStrictFlag : Obligations.SubtractSetsStrictFlag := by
  refine fun x y s => ⟨?_, ?_⟩
  · obtain ⟨t, ht, hx, hF, hframe⟩ := exists_next_of_flag_then_result (exec_subReg x y s)
    exact ⟨t, ht, by rw [hx, toNat_byte_sub], fun h => (hF h).trans (greaterFlag_eq _ _), hframe⟩
  · obtain ⟨t, ht, hx, hF, hframe⟩ := exists_next_of_flag_then_result (exec_subnReg x y s)
    exact ⟨t, ht, by rw [hx, toNat_byte_sub], fun h => (hF h).trans (greaterFlag_eq _ _), hframe⟩

/-! ## The shifts (R150, R152) -/

theorem shiftOperand_eq (s : State) (x y : Nibble) :
    shiftOperand s x y = if s.cfg.shiftSource = .vx then s.reg x else s.reg y := by
  rw [shiftOperand]
  cases s.cfg.shiftSource <;> rfl

theorem toNat_flagByte (b : Bool) : (flagByte b).toNat = b.toNat := by cases b <;> rfl

theorem toNat_shiftedOutRight (v : Byte) : (shiftedOutRight v).toNat = v.toNat % 2 := by
  rw [shiftedOutRight, toNat_flagByte, BitVec.getLsbD, Nat.toNat_testBit, pow_zero, Nat.div_one]

theorem toNat_shiftedOutLeft (v : Byte) : (shiftedOutLeft v).toNat = v.toNat / 128 := by
  have := v.isLt
  rw [shiftedOutLeft, toNat_flagByte, BitVec.getLsbD, Nat.toNat_testBit]
  omega

theorem toNat_byte_shr_one (v : Byte) : (v >>> 1).toNat = v.toNat / 2 := by
  rw [BitVec.toNat_ushiftRight, Nat.shiftRight_one]

theorem toNat_byte_shl_one (v : Byte) : (v <<< 1).toNat = v.toNat * 2 % 256 := by
  rw [BitVec.toNat_shiftLeft, Nat.shiftLeft_eq, pow_one]

/-- Settles O36: the bit shifted out is written first, the shifted value last. -/
theorem shiftsMoveOneBit : Obligations.ShiftsMoveOneBit := by
  rintro x y s _ rfl
  rw [← shiftOperand_eq]
  refine ⟨?_, ?_⟩
  · obtain ⟨t, ht, hx, hF, hframe⟩ := exists_next_of_flag_then_result (exec_shrReg x y s)
    exact ⟨t, ht, by rw [hx, toNat_byte_shr_one], fun h => by rw [hF h, toNat_shiftedOutRight], hframe⟩
  · obtain ⟨t, ht, hx, hF, hframe⟩ := exists_next_of_flag_then_result (exec_shlReg x y s)
    exact ⟨t, ht, by rw [hx, toNat_byte_shl_one], fun h => by rw [hF h, toNat_shiftedOutLeft], hframe⟩

/-! ## The random byte (R160) -/

theorem exec_rnd (x : Nibble) (kk : Byte) (s : State) : exec (.rnd x kk) s = .next
    { s.setReg x (s.randomByte &&& kk) with
      rndIn := none
      draws := if s.rndIn = none then s.draws + 1 else s.draws } := exec_eq _ _

/-- Settles O37: the meaning is one register write and the use of the byte; a step has the host's byte at hand. -/
theorem randomByteIsMasked : Obligations.RandomByteIsMasked := by
  refine ⟨fun x kk s => ?_, fun x kk rnd s ha hpc hd => ?_⟩
  · exact ⟨_, exec_rnd x kk s, reg_setReg_self s x _, fun r hr => reg_setReg_ne s _ (Ne.symm hr), fun _ => rfl, rfl,
      rfl, rfl⟩
  · have hstep := (step_of_decode_ok (s := { s with rndIn := some rnd }) ha hpc hd).trans (exec_rnd x kk _)
    exact ⟨_, command_step_of_next hstep, reg_setReg_self s x _, fun r hr => reg_setReg_ne s _ (Ne.symm hr),
      fun _ => rfl, rfl⟩

end Sys2Proof.Machine
end

section
/-! PROOFS. Calls and returns (40_control_flow.md section 2). -/

namespace Sys2Proof.Machine

theorem exec_call_of_lt {s : State} (nnn : Addr) (h : s.SP < s.cfg.stackDepth) : exec (.call nnn) s =
    .next { s with PC := zextAddr nnn, stack := s.stack.set s.SP s.PC, SP := s.SP + 1 } :=
  exec_of_raised_eq_none (if_neg (not_le.2 h))

theorem exec_call_of_le {s : State} (nnn : Addr) (h : s.cfg.stackDepth ≤ s.SP) : exec (.call nnn) s =
    .next { s with result := some (.stackOverflow (s.PC - 2) (encode (.call nnn))) } :=
  exec_of_raised_eq_some (if_pos h)

theorem exec_ret_of_pos {s : State} {w : Word} (h : 0 < s.SP) (hw : s.stack[s.SP - 1]? = some w) :
    exec .ret s = .next { s with PC := w, SP := s.SP - 1 } := by
  have hr : raised .ret s = none := if_neg (Nat.pos_iff_ne_zero.1 h)
  rw [exec_of_raised_eq_none hr, effect, State.stackTop, List.getD_eq_getElem?_getD, hw, Option.getD_some]

theorem exec_ret_of_zero {s : State} (h : s.SP = 0) :
    exec .ret s = .next { s with result := some (.stackUnderflow (s.PC - 2) 0x00EE#16) } :=
  exec_of_raised_eq_some (if_pos h)

/-- Settles O40: with room the entry at `SP` is the one set, and no other. -/
theorem callPushesAndJumps : Obligations.CallPushesAndJumps := by
  rintro nnn s ⟨hlen, -⟩
  refine ⟨fun hroom => ?_, fun hfull => exec_call_of_le nnn hfull.ge⟩
  exact ⟨_, exec_call_of_lt nnn hroom, rfl, rfl, List.getElem?_set_self (hlen ▸ hroom),
    fun j hj => List.getElem?_set_ne (Ne.symm hj), rfl⟩

/-- Settles O41: the meaning pops the newest entry, or finds none. -/
theorem returnPops : Obligations.ReturnPops := ⟨fun _ _ => exec_ret_of_pos, fun _ => exec_ret_of_zero⟩

/-! ## Nested calls (S4) -/

theorem execAll_cons_of_next {i : Instr} {is : List Instr} {s t : State} (h : exec i s = .next t) :
    execAll (i :: is) s = execAll is t := by
  simp only [execAll, h]

theorem execAll_append_of_next {is js : List Instr} {s t : State} (h : execAll is s = .next t) :
    execAll (is ++ js) s = execAll js t := by
  induction is generalizing s with
  | nil => cases h; rfl
  | cons i is ih =>
    obtain ⟨u, hu⟩ := exec_next i s
    rw [execAll_cons_of_next hu] at h
    rw [List.cons_append, execAll_cons_of_next hu, ih h]

/-- Settles O42, by induction on the calls: the inner calls and returns leave the outermost entry on top. -/
theorem nestedCallsReturn : Obligations.NestedCallsReturn := by
  intro targets
  induction targets with
  | nil => exact fun s _ _ => ⟨s, rfl, rfl, rfl, fun _ _ => rfl, rfl⟩
  | cons nnn targets ih =>
    rintro s ⟨hlen, hSP⟩ hroom
    rw [List.length_cons] at hroom
    have hlt : s.SP < s.cfg.stackDepth := by omega
    obtain ⟨t, ht, -, htSP, htstack, htframe⟩ :=
      ih { s with PC := zextAddr nnn, stack := s.stack.set s.SP s.PC, SP := s.SP + 1 }
        ⟨List.length_set.trans hlen, hlt⟩ (by simp only; omega)
    have htop : t.stack[t.SP - 1]? = some s.PC := by
      rw [htSP, Nat.add_sub_cancel, htstack s.SP (Nat.lt_succ_self _), List.getElem?_set_self (hlen ▸ hlt)]
    refine ⟨{ t with PC := s.PC, SP := t.SP - 1 }, ?_, rfl, by rw [htSP]; rfl, fun j hj => ?_, by rw [htframe]; rfl⟩
    · rw [List.map_cons, List.length_cons, List.replicate_succ', ← List.append_assoc, List.cons_append,
        List.cons_append, execAll_cons_of_next (exec_call_of_lt nnn hlt), execAll_append_of_next ht,
        execAll_cons_of_next (exec_ret_of_pos (by rw [htSP]; exact Nat.succ_pos _) htop)]
      rfl
    · exact (htstack j (Nat.lt_succ_of_lt hj)).trans (List.getElem?_set_ne hj.ne')

/-! ## The legacy call (R105, R122) -/

theorem exec_sys (nnn : Addr) (s : State) :
    exec (.sys nnn) s = .next { s with result := some (.unsupportedLegacyOp s.opPC (encode (.sys nnn))) } := rfl

/-- Settles O43: the fault is the whole meaning, and the record's word is the word fetched. -/
theorem legacyCallFaults : Obligations.LegacyCallFaults := by
  refine ⟨exec_sys, fun s ha hpc ht hcls hret => ?_⟩
  have hd := (decode_eq_sys_iff s.wordAtPC).2 ⟨ht, hcls, hret⟩
  rw [step_of_decode_ok ha hpc hd, exec_sys, opPC_advance, (keepsWord_decode _ _ hd).1]
  rfl

end Sys2Proof.Machine
end

section
/-! PROOFS. The index register and the accesses through it (42_index_memory.md). -/

namespace Sys2Proof.Machine

/-! ## Index arithmetic (R171, R172) -/

theorem toNat_add_zextByte (w : Word) (b : Byte) : (w + zextByte b).toNat = (w.toNat + b.toNat) % 65536 := by
  rw [BitVec.toNat_add, zextByte, BitVec.zeroExtend, BitVec.toNat_setWidth_of_le (by decide)]

/-- The font lies below 0x200, so that no glyph address wraps (R7, R38). -/
theorem toNat_glyphAddress {c : Config} (h : c.wf) (b : Byte) :
    (glyphAddress c (lowNibble b)).toNat = c.fontBase.toNat + 5 * (b.toNat % 16) := by
  obtain ⟨hbase, -⟩ := h
  rw [progBase] at hbase
  rw [glyphAddress, lowNibble_eq, BitVec.toNat_add, BitVec.toNat_ofNat, BitVec.toNat_ofNat]
  omega

/-- Settles O45: each meaning is one write of `I`. -/
theorem indexArithmetic : Obligations.IndexArithmetic := fun x s =>
  ⟨⟨effect (.addI x) s, rfl, toNat_add_zextByte s.I (s.reg x), rfl⟩,
    ⟨effect (.ldF x) s, rfl, fun h => toNat_glyphAddress h (s.reg x), rfl⟩⟩

/-! ## Accesses through `I` (R173, R221) -/

section Access

variable {i : Instr} {s : State} {n : Nat}

theorem exec_of_inRange (hi : raised i s = rangeFault i s n) (h : s.I.toNat + n ≤ 4096) :
    exec i s = .next (effect i s) :=
  exec_of_raised_eq_none (hi.trans (rangeFault_eq_none.2 h))

theorem exec_of_outOfRange (hi : raised i s = rangeFault i s n) (h : 4096 < s.I.toNat + n) :
    exec i s = .next { s with result := some (.outOfBounds (s.PC - 2) (encode i) s.I) } :=
  exec_of_raised_eq_some (hi.trans (rangeFault_eq_some.2 ⟨h, rfl⟩))

end Access

/-! ## `Fx33` (R175) -/

theorem memWrite_decimalDigits {s : State} (x : Nibble) (h : s.I.toNat + 3 ≤ 4096) :
    s.memWrite s.I.toNat (decimalDigits (s.reg x)) = some (effect (.ldB x) s) := memWrite_of_le s h

/-- A number no greater than a byte is a byte. -/
theorem toNat_ofNat_of_le {k : Nat} {v : Byte} (h : k ≤ v.toNat) : (BitVec.ofNat 8 k).toNat = k := by
  rw [BitVec.toNat_ofNat, Nat.mod_eq_of_lt (h.trans_lt v.isLt)]

/-- Settles O46: the meaning is the block write of the three digits. -/
theorem decimalDigitsAreStored : Obligations.DecimalDigitsAreStored := by
  refine fun x s => ⟨fun hle => ?_, exec_of_outOfRange rfl⟩
  have hw := memWrite_decimalDigits x hle
  have hdigit {k d : Nat} (hk : (decimalDigits (s.reg x))[k]? = some (BitVec.ofNat 8 d)) (hd : d ≤ (s.reg x).toNat) :
      ((effect (.ldB x) s).byteAt (s.I.toNat + k)).toNat = d := by
    rw [byteAt_of_memWrite_inside hw hk, toNat_ofNat_of_le hd]
  exact ⟨_, exec_of_inRange (n := 3) rfl hle, hdigit (k := 0) rfl (by omega), hdigit rfl (by omega),
    hdigit rfl (by omega), onlyBytes_of_memWrite hw⟩

/-! ## `Fx55` (R176) -/

theorem memWrite_storedRegs {s : State} {x : Nibble} (h : s.I.toNat + (x.toNat + 1) ≤ 4096) :
    s.memWrite s.I.toNat (storedRegs s x) = some (effect (.storeRegs x) s) :=
  memWrite_of_le s (by simpa [storedRegs, memSize] using h)

theorem getElem?_storedRegs (s : State) {x r : Nibble} (h : r.toNat ≤ x.toNat) :
    (storedRegs s x)[r.toNat]? = some (s.reg r) := by
  simp [storedRegs, Nat.lt_succ_of_le h]

theorem byteAt_effect_storeRegs {s : State} {x r : Nibble} (h : s.I.toNat + (x.toNat + 1) ≤ 4096)
    (hr : r.toNat ≤ x.toNat) : (effect (.storeRegs x) s).byteAt (s.I.toNat + r.toNat) = s.reg r :=
  byteAt_of_memWrite_inside (memWrite_storedRegs h) (getElem?_storedRegs s hr)

/-- Settles O47: the meaning is the block write of the registers. -/
theorem blockStoreWritesMemory : Obligations.BlockStoreWritesMemory := by
  refine fun x s => ⟨fun hle => ?_, exec_of_outOfRange rfl⟩
  have hframe := onlyBytes_of_memWrite (memWrite_storedRegs hle)
  rw [storedRegs, List.length_map, List.length_range] at hframe
  exact ⟨_, exec_of_inRange (n := x.toNat + 1) rfl hle, fun _ => byteAt_effect_storeRegs hle, hframe⟩

/-! ## `Fx65` (R177) -/

/-- Settles O48: the meaning writes the register file alone, V0 to Vx from memory. -/
theorem blockLoadWritesRegisters : Obligations.BlockLoadWritesRegisters := by
  refine fun x s => ⟨fun hle => ?_, exec_of_outOfRange rfl⟩
  refine ⟨_, exec_of_inRange (n := x.toNat + 1) rfl hle, fun r hr => ?_, fun r hr => ?_,
    fun _ => by simp [State.byteAt, effect], rfl⟩
  · rw [reg_effect_loadRegs, if_pos hr]
  · rw [reg_effect_loadRegs, if_neg hr]

/-- Settles O49: the load reads each byte where the store put the register. -/
theorem storeThenLoadRoundTrips : Obligations.StoreThenLoadRoundTrips := by
  rintro x s u hle ⟨t, ht, hI, hmem, hcfg⟩
  cases (exec_of_inRange (n := x.toNat + 1) rfl hle).symm.trans ht
  have hI : u.I = s.I := hI
  refine ⟨_, exec_of_inRange (n := x.toNat + 1) rfl (by rw [hI]; exact hle), fun r hr => ?_⟩
  rw [reg_effect_loadRegs, if_pos hr, byteAt_congr hcfg hmem, hI, byteAt_effect_storeRegs hle hr]

/-- Settles O50: the store's first two bytes are those the advanced `PC` fetches. -/
theorem storeIsSeenByTheNextFetch : Obligations.StoreIsSeenByTheNextFetch := by
  intro x s ha hpc hd hx hI hle
  have hstep := (step_of_decode_ok ha hpc hd).trans (exec_of_inRange (n := x.toNat + 1) rfl hle)
  have hbyte (r : Nibble) (hr : r.toNat ≤ x.toNat) := byteAt_effect_storeRegs (s := s.advance) hle hr
  refine ⟨_, hstep, effect_result _ _, fetch_eq_some.2 ⟨?_, ?_⟩⟩
  · show (s.PC + 2).toNat + 2 ≤ memSize
    rw [← hI, memSize]
    omega
  · show _ = wordOfBytes ((effect _ _).byteAt (s.PC + 2).toNat) ((effect _ _).byteAt ((s.PC + 2).toNat + 1))
    rw [← hI]
    exact (congrArg₂ wordOfBytes (hbyte 0x0#4 (Nat.zero_le _)) (hbyte 0x1#4 hx)).symm

end Sys2Proof.Machine
end

section
/-! PROOFS. The keypad (44_keypad_timers.md sections 1 and 3). -/

namespace Sys2Proof.Machine

theorem exec_skp (x : Nibble) (s : State) : exec (.skp x) s =
    .next { s with PC := if s.keyDown (lowNibble (s.reg x)) then s.PC + 2 else s.PC } :=
  congrArg Host.Outcome.next (skipIf_eq_of_iff s Iff.rfl)

theorem exec_sknp (x : Nibble) (s : State) : exec (.sknp x) s =
    .next { s with PC := if s.keyDown (lowNibble (s.reg x)) then s.PC else s.PC + 2 } := by
  refine congrArg Host.Outcome.next ((skipIf_eq_of_iff s Iff.rfl).trans ?_)
  cases s.keyDown (lowNibble (s.reg x)) <;> rfl

/-- Settles O54: both are one skip, on the flag of the key that the low nibble names. -/
theorem keySkipsTestTheLowNibble : Obligations.KeySkipsTestTheLowNibble := fun x s => by
  rw [← lowNibble_eq]
  exact ⟨exec_skp x s, exec_sknp x s⟩

theorem exec_ldVxK (x : Nibble) (s : State) : exec (.ldVxK x) s = .next (s.keyPoll x) := rfl

/-- Settles O56: the meaning is a poll, which finds no key or the least one that is down. -/
theorem waitForKeyPollsAtOnce : Obligations.WaitForKeyPollsAtOnce := by
  refine ⟨fun x s hk => ?_, fun x s k hk hl => ?_⟩
  · rw [exec_ldVxK, keyPoll_of_lowestKey_eq_none x (lowestKey_of_none hk)]
  · refine ⟨_, exec_ldVxK x s, ?_⟩
    rw [keyPoll_of_lowestKey_eq_some x (lowestKey_of_least hk hl)]
    exact ⟨reg_setReg_self s _ _, fun r hr => reg_setReg_ne s _ (Ne.symm hr), rfl⟩

end Sys2Proof.Machine
end

section
/-! PROOFS. Drawing a sprite: the pixels it covers, as a set, are those its bits flip (43_display.md section 3). -/

namespace Sys2Proof.Machine

/-! ## The covered pixels are the flipped ones (R192, R193) -/

/-- The pixels that `Dxyn` flips, in the order in which it flips them. -/
def drawHits (s : State) (x y n : Nibble) : List (Nat × Nat) :=
  spriteHits s.cfg.spriteEdge (originY (s.reg y)) (originX (s.reg x)) (spriteRows s n)

theorem getElem?_spriteRows_eq_some {s : State} {n : Nibble} {r : Nat} {row : Byte} :
    (spriteRows s n)[r]? = some row ↔ r < n.toNat ∧ row = s.byteAt (s.I.toNat + r) := by
  rw [spriteRows, List.getElem?_eq_some_iff]
  simp [eq_comm]

theorem edgePixel_clip_eq_some {py px qy qx : Nat} (hy : qy < 32) (hx : qx < 64) :
    edgePixel .clip py px = some (qy, qx) ↔ qy = py ∧ qx = px := by
  simp only [edgePixel, Option.ite_none_left_eq_some, Option.some.injEq, Prod.mk.injEq]
  omega

theorem edgePixel_wrap_eq_some {py px qy qx : Nat} :
    edgePixel .wrap py px = some (qy, qx) ↔ qy = py % 32 ∧ qx = px % 64 := by
  simp only [edgePixel, Option.some.injEq, Prod.mk.injEq, eq_comm]

theorem spriteCovers_iff_mem_drawHits (s : State) (x y n : Nibble) (px : BitVec 6) (py : BitVec 5) :
    spriteCovers s x y n px py ↔ (py.toNat, px.toNat) ∈ drawHits s x y n := by
  rw [drawHits, mem_spriteHits, spriteCovers]
  refine exists_congr fun r => exists_congr fun b => ?_
  constructor
  · rintro ⟨hr, hb, hbit, hq⟩
    refine ⟨_, getElem?_spriteRows_eq_some.2 ⟨hr, rfl⟩, hb, hbit, ?_⟩
    cases he : s.cfg.spriteEdge <;> rw [he] at hq
    · exact (edgePixel_clip_eq_some py.isLt px.isLt).2 hq
    · exact edgePixel_wrap_eq_some.2 hq
  · rintro ⟨row, hrow, hb, hbit, hq⟩
    obtain ⟨hr, rfl⟩ := getElem?_spriteRows_eq_some.1 hrow
    refine ⟨hr, hb, hbit, ?_⟩
    cases he : s.cfg.spriteEdge <;> rw [he] at hq
    · exact (edgePixel_clip_eq_some py.isLt px.isLt).1 hq
    · exact edgePixel_wrap_eq_some.1 hq

theorem drawHits_on_grid (s : State) (x y n : Nibble) : ∀ q ∈ drawHits s x y n, q.1 < 32 ∧ q.2 < 64 := by
  intro q hq
  obtain ⟨_, _, _, _, _, _, hq⟩ := mem_spriteHits.1 hq
  exact edgePixel_on_grid hq

theorem nodup_drawHits (s : State) (x y n : Nibble) : (drawHits s x y n).Nodup := by
  have := n.isLt
  exact nodup_spriteHits _ _ _ _ (by rw [spriteRows, List.length_map, List.length_range]; omega)

/-! ## What a draw leaves (R192) -/

section Drawn

variable (x y n : Nibble) (s : State)

theorem effect_drw_fb : (effect (.drw x y n) s).fb = ((drawHits s x y n).foldl flipHit (s.fb, false)).1 :=
  congrArg Prod.fst (drawRows_eq _ _ _ _ _)

theorem reg_flag_effect_drw : (effect (.drw x y n) s).reg 0xF#4 =
    collisionFlag ((drawHits s x y n).foldl flipHit (s.fb, false)).2 :=
  (reg_setReg_self s flagReg _).trans (congrArg (fun d => collisionFlag d.2) (drawRows_eq _ _ _ _ _))

theorem reg_effect_drw {r : Nibble} (hr : r ≠ 0xF#4) : (effect (.drw x y n) s).reg r = s.reg r :=
  reg_setReg_ne s _ (Ne.symm hr)

theorem pixelOut_effect_drw (px : BitVec 6) (py : BitVec 5) : (effect (.drw x y n) s).pixelOut px py =
    (s.pixelOut px py ^^ decide ((py.toNat, px.toNat) ∈ drawHits s x y n)) := by
  rw [State.pixelOut, effect_drw_fb]
  exact (foldl_flipHit _ _ (nodup_drawHits s x y n) (drawHits_on_grid s x y n)).1 _ _ py.isLt px.isLt

theorem pixelOut_of_covers {px : BitVec 6} {py : BitVec 5} (h : spriteCovers s x y n px py) :
    (effect (.drw x y n) s).pixelOut px py = !s.pixelOut px py := by
  rw [pixelOut_effect_drw, decide_eq_true ((spriteCovers_iff_mem_drawHits s x y n px py).1 h), Bool.xor_true]

theorem pixelOut_of_not_covers {px : BitVec 6} {py : BitVec 5} (h : ¬ spriteCovers s x y n px py) :
    (effect (.drw x y n) s).pixelOut px py = s.pixelOut px py := by
  rw [pixelOut_effect_drw, decide_eq_false (mt (spriteCovers_iff_mem_drawHits s x y n px py).2 h), Bool.xor_false]

/-- A collision is reported exactly when a covered pixel was set (C7). -/
theorem collision_iff : ((drawHits s x y n).foldl flipHit (s.fb, false)).2 = true ↔
    ∃ px py, spriteCovers s x y n px py ∧ s.pixelOut px py = true := by
  rw [(foldl_flipHit _ _ (nodup_drawHits s x y n) (drawHits_on_grid s x y n)).2, Bool.false_or, List.any_eq_true]
  constructor
  · rintro ⟨⟨qy, qx⟩, hq, hset⟩
    obtain ⟨hy, hx⟩ := drawHits_on_grid s x y n _ hq
    have hy' : (BitVec.ofNat 5 qy).toNat = qy := Nat.mod_eq_of_lt hy
    have hx' : (BitVec.ofNat 6 qx).toNat = qx := Nat.mod_eq_of_lt hx
    refine ⟨BitVec.ofNat 6 qx, BitVec.ofNat 5 qy, (spriteCovers_iff_mem_drawHits s x y n _ _).2 ?_, ?_⟩
    · rwa [hy', hx']
    · rwa [State.pixelOut, hy', hx']
  · rintro ⟨px, py, hc, hset⟩
    exact ⟨_, (spriteCovers_iff_mem_drawHits s x y n px py).1 hc, hset⟩

theorem flag_of_collision (h : ∃ px py, spriteCovers s x y n px py ∧ s.pixelOut px py = true) :
    (effect (.drw x y n) s).reg 0xF#4 = 1 := by
  rw [reg_flag_effect_drw, (collision_iff x y n s).2 h]
  rfl

theorem flag_of_no_collision (h : ∀ px py, spriteCovers s x y n px py → s.pixelOut px py = false) :
    (effect (.drw x y n) s).reg 0xF#4 = 0 := by
  have hnone : ¬ ∃ px py, spriteCovers s x y n px py ∧ s.pixelOut px py = true := by
    rintro ⟨px, py, hc, hset⟩
    exact absurd hset (by rw [h px py hc]; decide)
  rw [reg_flag_effect_drw, Bool.eq_false_iff.2 (mt (collision_iff x y n s).1 hnone)]
  rfl

end Drawn

/-- Settles O52: the draw is the flips of its pixels, each once, and their collision. -/
theorem drawFlipsTheCoveredPixels : Obligations.DrawFlipsTheCoveredPixels := by
  refine fun x y n s => ⟨fun hle => ?_, exec_of_outOfRange rfl⟩
  exact ⟨_, exec_of_inRange (n := n.toNat) rfl hle, fun _ _ => pixelOut_of_covers x y n s,
    fun _ _ => pixelOut_of_not_covers x y n s, flag_of_collision x y n s, flag_of_no_collision x y n s, rfl,
    fun _ => reg_effect_drw x y n s, fun _ => rfl, rfl⟩

/-! ## Drawing twice (S5, R194) -/

theorem drawHits_congr {s t : State} {x y n : Nibble} (hcfg : t.cfg = s.cfg) (hI : t.I = s.I) (hmem : t.mem = s.mem)
    (hx : t.reg x = s.reg x) (hy : t.reg y = s.reg y) : drawHits t x y n = drawHits s x y n := by
  simp only [drawHits, spriteRows, State.byteAt, hcfg, hI, hmem, hx, hy]

/-- A draw whose origin is not in VF leaves its own sprite where it is. -/
theorem spriteCovers_effect_drw {x y : Nibble} (n : Nibble) (s : State) (hx : x ≠ 0xF#4) (hy : y ≠ 0xF#4)
    (px : BitVec 6) (py : BitVec 5) :
    spriteCovers (effect (.drw x y n) s) x y n px py ↔ spriteCovers s x y n px py := by
  rw [spriteCovers_iff_mem_drawHits, spriteCovers_iff_mem_drawHits,
    drawHits_congr (effect_cfg _ s) rfl rfl (reg_effect_drw x y n s hx) (reg_effect_drw x y n s hy)]

/-- Settles O53: the second draw flips back what the first one flipped. -/
theorem drawTwiceRestores : Obligations.DrawTwiceRestores := by
  intro x y n s hx hy hle
  have hcovers := spriteCovers_effect_drw n s hx hy
  refine ⟨_, _, exec_of_inRange (n := n.toNat) rfl hle, exec_of_inRange (n := n.toNat) rfl hle, fun px py => ?_,
    fun hclear => ⟨flag_of_no_collision x y n s fun px py _ => hclear px py, fun hflag => ?_, ?_⟩⟩
  · by_cases hc : spriteCovers s x y n px py
    · rw [pixelOut_of_covers _ _ _ _ ((hcovers px py).2 hc), pixelOut_of_covers _ _ _ _ hc, Bool.not_not]
    · rw [pixelOut_of_not_covers _ _ _ _ (mt (hcovers px py).1 hc), pixelOut_of_not_covers _ _ _ _ hc]
  · by_contra hnone
    have hzero := flag_of_no_collision x y n (effect (.drw x y n) s) fun px py hc =>
      absurd ⟨px, py, (hcovers px py).1 hc⟩ hnone
    exact absurd (hflag.symm.trans hzero) (by decide)
  · rintro ⟨px, py, hc⟩
    refine flag_of_collision x y n _ ⟨px, py, (hcovers px py).2 hc, ?_⟩
    rw [pixelOut_of_covers x y n s hc, hclear px py, Bool.not_false]

end Sys2Proof.Machine
end
